-- ==== Sys2Proof/Word.lean ====
section
/-! DEFINITION. The two word types of the machine (00_scope.md R5, R8). -/

namespace Sys2Proof

/-- A register value or an address: 64 unsigned bits (R5, R8). -/
abbrev Word := BitVec 64

/-- The unit of memory and of the instruction stream: 8 bits (R5). -/
abbrev Byte := BitVec 8

end Sys2Proof
end

