-- ==== Sys2Proof/Config.lean ====
section
/-! DEFINITION. What one constructed processor fixes (00_scope.md R6, R7), and the one free value, MEM_INIT.
The defaults the spec gives stand in Decode.lean (`Params.default`). -/

namespace Sys2Proof

/-- `BYTE_ORDER` (R7, 20_memory.md R45). The spec's default is `little`; `big` is the parameter's other value
(DEDUCED, log 3). -/
inductive ByteOrder where
  | little
  | big
deriving DecidableEq, Repr

/-- `PC_WRITE_POLICY` (R7, 40_execution_loop.md R83): what a destination operand naming PROGRAM_COUNTER does. -/
inductive PcWritePolicy where
  /-- the instruction raises `ProgramCounterWrite` (the spec's default) -/
  | fault
  /-- the write takes effect: a jump (44_control.md R163) -/
  | jump
deriving DecidableEq, Repr

/-- `OPCODE_MAP` (R7, 30_encoding.md R62): the opcode byte of each of the 18 instructions. -/
structure OpcodeMap where
  add : Byte
  sub : Byte
  mul : Byte
  div : Byte
  mod : Byte
  incReg : Byte
  incAddrInReg : Byte
  incAddrLiteral : Byte
  decReg : Byte
  decAddrInReg : Byte
  decAddrLiteral : Byte
  nop : Byte
  moveRegReg : Byte
  moveRegConst : Byte
  moveRegAddrInReg : Byte
  moveRegAddrLiteral : Byte
  moveAddrInRegReg : Byte
  exit : Byte
deriving DecidableEq, Repr

/-- `REG_ID_MAP` (R7, 10_state.md R21): the identifier byte of each of the 8 registers. -/
structure RegIdMap where
  a : Byte
  b : Byte
  pc : Byte
  sp : Byte
  zf : Byte
  sf : Byte
  rf : Byte
  exit : Byte
deriving DecidableEq, Repr

/-- The parameters of one processor (R6, R7). They are fixed at construction and no step changes them. -/
structure Params where
  /-- `CAPACITY`, the number of bytes of memory (R6) -/
  capacity : Nat
  opcodes : OpcodeMap
  regIds : RegIdMap
  byteOrder : ByteOrder
  pcWritePolicy : PcWritePolicy
deriving DecidableEq, Repr

/-- `MEM_INIT` (20_memory.md R57): the value of a byte nothing has written. FREE VALUE: it has no body, so no
proof can rest on what it is (log 6). -/
opaque Config.memInit : Nat → Byte

end Sys2Proof
end

