-- ==== Sys2Proof/Syntax.lean ====
section
/-! DEFINITION. The instructions as syntax: one constructor of `Instr` for each of the 18 rows of
spec/opcode_table.json (30_encoding.md R62, R63). -/

namespace Sys2Proof

/-- The eight registers, in the order of 10_state.md R21. -/
inductive Reg where
  | a
  | b
  | pc
  | sp
  | zf
  | sf
  | rf
  | exit
deriving DecidableEq, Repr

/-- Every register, once. -/
def Reg.all : List Reg := [.a, .b, .pc, .sp, .zf, .sf, .rf, .exit]

/-- The access widths (00_scope.md R5). -/
inductive Width where
  | w1
  | w2
  | w4
  | w8
deriving DecidableEq, Repr

/-- The number of bytes of a width, which is also what its width byte holds (30_encoding.md R61). -/
def Width.bytes : Width → Nat
  | .w1 => 1
  | .w2 => 2
  | .w4 => 4
  | .w8 => 8

/-- The 18 handlers of the dispatch table (30_encoding.md R62). -/
inductive Opcode where
  | add
  | sub
  | mul
  | div
  | mod
  | incReg
  | incAddrInReg
  | incAddrLiteral
  | decReg
  | decAddrInReg
  | decAddrLiteral
  | nop
  | moveRegReg
  | moveRegConst
  | moveRegAddrInReg
  | moveRegAddrLiteral
  | moveAddrInRegReg
  | exit
deriving DecidableEq, Repr

/-- Every opcode, once, in the order of R62. -/
def Opcode.all : List Opcode :=
  [.add, .sub, .mul, .div, .mod, .incReg, .incAddrInReg, .incAddrLiteral, .decReg, .decAddrInReg,
   .decAddrLiteral, .nop, .moveRegReg, .moveRegConst, .moveRegAddrInReg, .moveRegAddrLiteral,
   .moveAddrInRegReg, .exit]

/-- An instruction with its operands (30_encoding.md R63). An immediate is held zero-extended, as every
handler uses it (R67); `Instr.wf` says that it fits its width. -/
inductive Instr where
  | add
  | sub
  | mul
  | div
  | mod
  | incReg (r : Reg)
  | incAddrInReg (w : Width) (ra : Reg)
  | incAddrLiteral (w : Width) (addr : Word)
  | decReg (r : Reg)
  | decAddrInReg (w : Width) (ra : Reg)
  | decAddrLiteral (w : Width) (addr : Word)
  | nop
  | moveRegReg (rd rs : Reg)
  | moveRegConst (rd : Reg) (w : Width) (imm : Word)
  | moveRegAddrInReg (rd : Reg) (w : Width) (ra : Reg)
  | moveRegAddrLiteral (rd : Reg) (w : Width) (addr : Word)
  | moveAddrInRegReg (ra : Reg) (w : Width) (rs : Reg)
  | exit
deriving DecidableEq, Repr

/-- The handler an instruction is dispatched to (R62). -/
def Instr.opcode : Instr → Opcode
  | .add => .add
  | .sub => .sub
  | .mul => .mul
  | .div => .div
  | .mod => .mod
  | .incReg _ => .incReg
  | .incAddrInReg _ _ => .incAddrInReg
  | .incAddrLiteral _ _ => .incAddrLiteral
  | .decReg _ => .decReg
  | .decAddrInReg _ _ => .decAddrInReg
  | .decAddrLiteral _ _ => .decAddrLiteral
  | .nop => .nop
  | .moveRegReg _ _ => .moveRegReg
  | .moveRegConst _ _ _ => .moveRegConst
  | .moveRegAddrInReg _ _ _ => .moveRegAddrInReg
  | .moveRegAddrLiteral _ _ _ => .moveRegAddrLiteral
  | .moveAddrInRegReg _ _ _ => .moveAddrInRegReg
  | .exit => .exit

/-- The destination register operand, where the format has one: rd of RR, RWI, RWR and RWL, r of R
(30_encoding.md R65). -/
def Instr.dest : Instr → Option Reg
  | .incReg r => some r
  | .decReg r => some r
  | .moveRegReg rd _ => some rd
  | .moveRegConst rd _ _ => some rd
  | .moveRegAddrInReg rd _ _ => some rd
  | .moveRegAddrLiteral rd _ _ => some rd
  | .add => none
  | .sub => none
  | .mul => none
  | .div => none
  | .mod => none
  | .incAddrInReg _ _ => none
  | .incAddrLiteral _ _ => none
  | .decAddrInReg _ _ => none
  | .decAddrLiteral _ _ => none
  | .nop => none
  | .moveAddrInRegReg _ _ _ => none
  | .exit => none

/-- The kinds of operand (30_encoding.md R61, R65): a register that is only read, a destination register, a width
byte, and a value of `n` bytes (an immediate or an address literal). -/
inductive OperandField where
  | reg
  | dest
  | width
  | value (n : Nat)
deriving DecidableEq, Repr

/-- How many bytes one fetch of the operand takes (40_execution_loop.md R80, R81). -/
def OperandField.bytes : OperandField → Nat
  | .reg => 1
  | .dest => 1
  | .width => 1
  | .value n => n

/-- The operands of an instruction in the order of its bytes, each with how far it lies from the opcode byte: the
formats of 30_encoding.md R63. -/
def Instr.operandFields : Instr → List (Nat × OperandField)
  | .add => []
  | .sub => []
  | .mul => []
  | .div => []
  | .mod => []
  | .incReg _ => [(1, .dest)]
  | .incAddrInReg _ _ => [(1, .width), (2, .reg)]
  | .incAddrLiteral _ _ => [(1, .width), (2, .value 8)]
  | .decReg _ => [(1, .dest)]
  | .decAddrInReg _ _ => [(1, .width), (2, .reg)]
  | .decAddrLiteral _ _ => [(1, .width), (2, .value 8)]
  | .nop => []
  | .moveRegReg _ _ => [(1, .dest), (2, .reg)]
  | .moveRegConst _ w _ => [(1, .dest), (2, .width), (3, .value w.bytes)]
  | .moveRegAddrInReg _ _ _ => [(1, .dest), (2, .width), (3, .reg)]
  | .moveRegAddrLiteral _ _ _ => [(1, .dest), (2, .width), (3, .value 8)]
  | .moveAddrInRegReg _ _ _ => [(1, .reg), (2, .width), (3, .reg)]
  | .exit => []

end Sys2Proof
end

