-- ==== Sys2Proof/WellFormed.lean ====
section
/-! DEFINITION. Which parameters are those of a machine the spec describes, and which instructions the
encoding admits. -/

namespace Sys2Proof

/-- The opcode bytes of the map, in the order of `Opcode.all`. -/
def OpcodeMap.bytes (m : OpcodeMap) : List Byte :=
  [m.add, m.sub, m.mul, m.div, m.mod, m.incReg, m.incAddrInReg, m.incAddrLiteral, m.decReg, m.decAddrInReg,
   m.decAddrLiteral, m.nop, m.moveRegReg, m.moveRegConst, m.moveRegAddrInReg, m.moveRegAddrLiteral,
   m.moveAddrInRegReg, m.exit]

/-- The identifier bytes of the map, in the order of `Reg.all`. -/
def RegIdMap.bytes (m : RegIdMap) : List Byte :=
  [m.a, m.b, m.pc, m.sp, m.zf, m.sf, m.rf, m.exit]

/-- The parameters are those of a machine: `CAPACITY` < 2^64 (00_scope.md R6) and both byte maps injective
(30_encoding.md R62; for the register identifiers 10_state.md R20, R21, DEDUCED, log 2). -/
def Params.wf (p : Params) : Bool :=
  decide (p.capacity < 2 ^ 64) && decide p.opcodes.bytes.Nodup && decide p.regIds.bytes.Nodup

/-- The immediate operand fits its width (30_encoding.md R61, R67). -/
def Instr.immFits : Instr → Bool
  | .moveRegConst _ w imm => decide (imm.toNat < 2 ^ (8 * w.bytes))
  | .add => true
  | .sub => true
  | .mul => true
  | .div => true
  | .mod => true
  | .incReg _ => true
  | .incAddrInReg _ _ => true
  | .incAddrLiteral _ _ => true
  | .decReg _ => true
  | .decAddrInReg _ _ => true
  | .decAddrLiteral _ _ => true
  | .nop => true
  | .moveRegReg _ _ => true
  | .moveRegAddrInReg _ _ _ => true
  | .moveRegAddrLiteral _ _ _ => true
  | .moveAddrInRegReg _ _ _ => true
  | .exit => true

/-- The policy admits the destination: PROGRAM_COUNTER is one only under `jump` (40_execution_loop.md R83). -/
def Instr.destAdmitted (p : Params) (i : Instr) : Bool :=
  !(decide (i.dest = some .pc) && decide (p.pcWritePolicy = .fault))

/-- The instructions the Decoder can deliver under the parameters `p`. -/
def Instr.wf (p : Params) (i : Instr) : Bool :=
  i.immFits && i.destAdmitted p

end Sys2Proof
end

