-- ==== Sys2Proof/Decode.lean ====
section
/-! DEFINITION. The byte encoding (spec/30_encoding.md): the spec's default parameters, the byte-order
conversions, the Decoder (40_execution_loop.md R80 to R85) over a list of bytes, and the encoder. -/

namespace Sys2Proof

/-! ## The spec's defaults -/

/-- The default `OPCODE_MAP`: the table of 30_encoding.md R62 (log 1). -/
def OpcodeMap.default : OpcodeMap where
  add := 0x00
  sub := 0x01
  mul := 0x02
  div := 0x03
  mod := 0x04
  incReg := 0x05
  incAddrInReg := 0x06
  incAddrLiteral := 0x07
  decReg := 0x08
  decAddrInReg := 0x09
  decAddrLiteral := 0x0A
  nop := 0x0B
  moveRegReg := 0x0C
  moveRegConst := 0x0D
  moveRegAddrInReg := 0x0E
  moveRegAddrLiteral := 0x0F
  moveAddrInRegReg := 0x10
  exit := 0x11

/-- The default `REG_ID_MAP`: the table of 10_state.md R21 (log 2). -/
def RegIdMap.default : RegIdMap where
  a := 0
  b := 1
  pc := 2
  sp := 3
  zf := 4
  sf := 5
  rf := 6
  exit := 7

/-- A processor of the given capacity with every other parameter at the spec's default (00_scope.md R7). -/
def Params.ofCapacity (capacity : Nat) : Params where
  capacity := capacity
  opcodes := .default
  regIds := .default
  byteOrder := .little
  pcWritePolicy := .fault

/-- The spec's defaults, with the capacity of the source's example (R6). DESIGN CHOICE, log 4: R6 names 65536
as an example and sets no default. -/
def Params.default : Params := .ofCapacity 65536

/-! ## Numbers and bytes (00_scope.md R10, R11; 20_memory.md R45) -/

/-- `le_value`: Σ b[i]·2^(8i) (R11). -/
def leValue : List Byte → Nat
  | [] => 0
  | b :: bs => b.toNat + 256 * leValue bs

/-- `le_bytes_n(v)`: byte i is v[8i+7:8i] (R11). -/
def leBytes : Nat → Nat → List Byte
  | 0, _ => []
  | n + 1, v => BitVec.ofNat 8 v :: leBytes n (v / 256)

/-- The number a byte sequence stands for under a byte order (R45). -/
def ByteOrder.value : ByteOrder → List Byte → Nat
  | .little, bs => leValue bs
  | .big, bs => leValue bs.reverse

/-- The `n` bytes of a number under a byte order (R45). -/
def ByteOrder.toBytes : ByteOrder → Nat → Nat → List Byte
  | .little, n, v => leBytes n v
  | .big, n, v => (leBytes n v).reverse

/-- The `zext_64` of the value of a byte sequence (R10). -/
def ByteOrder.word (o : ByteOrder) (bs : List Byte) : Word :=
  BitVec.ofNat 64 (o.value bs)

/-! ## The byte maps -/

/-- The opcode byte of a handler under an `OPCODE_MAP` (30_encoding.md R62). -/
def OpcodeMap.byteOf (m : OpcodeMap) : Opcode → Byte
  | .add => m.add
  | .sub => m.sub
  | .mul => m.mul
  | .div => m.div
  | .mod => m.mod
  | .incReg => m.incReg
  | .incAddrInReg => m.incAddrInReg
  | .incAddrLiteral => m.incAddrLiteral
  | .decReg => m.decReg
  | .decAddrInReg => m.decAddrInReg
  | .decAddrLiteral => m.decAddrLiteral
  | .nop => m.nop
  | .moveRegReg => m.moveRegReg
  | .moveRegConst => m.moveRegConst
  | .moveRegAddrInReg => m.moveRegAddrInReg
  | .moveRegAddrLiteral => m.moveRegAddrLiteral
  | .moveAddrInRegReg => m.moveAddrInRegReg
  | .exit => m.exit

/-- The identifier byte of a register under a `REG_ID_MAP` (10_state.md R21). -/
def RegIdMap.byteOf (m : RegIdMap) : Reg → Byte
  | .a => m.a
  | .b => m.b
  | .pc => m.pc
  | .sp => m.sp
  | .zf => m.zf
  | .sf => m.sf
  | .rf => m.rf
  | .exit => m.exit

/-- The dispatch table `DISPATCH`: the handler of an opcode byte, or `none` for an unmapped byte
(40_execution_loop.md R86, 30_encoding.md R68). -/
def OpcodeMap.dispatch (m : OpcodeMap) (op : Byte) : Option Opcode :=
  Opcode.all.find? fun h => m.byteOf h == op

/-- The register an identifier byte names, or `none` (30_encoding.md R65). -/
def RegIdMap.regOf (m : RegIdMap) (b : Byte) : Option Reg :=
  Reg.all.find? fun r => m.byteOf r == b

/-- The width a width byte names, or `none` (30_encoding.md R66). -/
def Width.ofByte (b : Byte) : Option Width :=
  if b = 1 then some .w1
  else if b = 2 then some .w2
  else if b = 4 then some .w4
  else if b = 8 then some .w8
  else none

/-- The width byte: the width in bytes itself (30_encoding.md R61). -/
def Width.toByte (w : Width) : Byte := BitVec.ofNat 8 w.bytes

/-! ## The Decoder (40_execution_loop.md R80 to R85)

Each primitive gives a value and the position past it, or a rejection. -/

/-- Why the Decoder stops. The loop turns each into the fault of 60_exceptions.md R170. -/
inductive DecodeError where
  /-- a fetch of `n` bytes that passes the end of the bytes (R80, R81) -/
  | endOfMemory (n : Nat)
  /-- an unmapped opcode byte (R87) -/
  | unknownOpcode (op : Byte)
  /-- a register operand that names no register (R82) -/
  | invalidRegister (b : Byte)
  /-- a destination operand that names PROGRAM_COUNTER under the policy `fault` (R83) -/
  | programCounterWrite (b : Byte)
  /-- a width operand outside {1, 2, 4, 8} (R84) -/
  | invalidOperandSize (b : Byte)
deriving DecidableEq, Repr

/-- A decode that stopped: why, and how far PROGRAM_COUNTER then stands past the instruction address (R94). -/
structure Reject where
  error : DecodeError
  consumed : Nat
deriving DecidableEq, Repr

/-- The Decoder's position: how many bytes it has consumed, and the bytes that follow. -/
structure Cursor where
  pos : Nat
  rest : List Byte
deriving DecidableEq, Repr

/-- `FetchByte` (R80). -/
def fetchByte (c : Cursor) : Except Reject (Byte × Cursor) :=
  match c.rest with
  | [] => .error { error := .endOfMemory 1, consumed := c.pos }
  | b :: bs => .ok (b, { pos := c.pos + 1, rest := bs })

/-- `FetchBytes(n)`, one access (R81): the value is `zext_64` of the n bytes. -/
def fetchBytes (o : ByteOrder) (n : Nat) (c : Cursor) : Except Reject (Word × Cursor) :=
  if c.rest.length < n then
    .error { error := .endOfMemory n, consumed := c.pos }
  else
    .ok (o.word (c.rest.take n), { pos := c.pos + n, rest := c.rest.drop n })

/-- `DecodeReg` (R82). -/
def decodeReg (p : Params) (c : Cursor) : Except Reject (Reg × Cursor) := do
  let (b, c) ← fetchByte c
  match p.regIds.regOf b with
  | some r => .ok (r, c)
  | none => .error { error := .invalidRegister b, consumed := c.pos }

/-- `DecodeDestReg` (R83). -/
def decodeDestReg (p : Params) (c : Cursor) : Except Reject (Reg × Cursor) := do
  let (r, c) ← decodeReg p c
  if r = .pc ∧ p.pcWritePolicy = .fault then
    .error { error := .programCounterWrite (p.regIds.byteOf r), consumed := c.pos }
  else
    .ok (r, c)

/-- `DecodeWidth` (R84). -/
def decodeWidth (c : Cursor) : Except Reject (Width × Cursor) := do
  let (b, c) ← fetchByte c
  match Width.ofByte b with
  | some w => .ok (w, c)
  | none => .error { error := .invalidOperandSize b, consumed := c.pos }

/-- `DecodeAddrLiteral` (R85). -/
def decodeAddrLiteral (p : Params) (c : Cursor) : Except Reject (Word × Cursor) :=
  fetchBytes p.byteOrder 8 c

/-- The operands of each handler, in the order of 30_encoding.md R63. -/
def decodeOperands (p : Params) (h : Opcode) (c : Cursor) : Except Reject (Instr × Cursor) :=
  match h with
  | .add => .ok (.add, c)
  | .sub => .ok (.sub, c)
  | .mul => .ok (.mul, c)
  | .div => .ok (.div, c)
  | .mod => .ok (.mod, c)
  | .nop => .ok (.nop, c)
  | .exit => .ok (.exit, c)
  | .incReg => do
    let (r, c) ← decodeDestReg p c
    .ok (.incReg r, c)
  | .decReg => do
    let (r, c) ← decodeDestReg p c
    .ok (.decReg r, c)
  | .incAddrInReg => do
    let (w, c) ← decodeWidth c
    let (ra, c) ← decodeReg p c
    .ok (.incAddrInReg w ra, c)
  | .decAddrInReg => do
    let (w, c) ← decodeWidth c
    let (ra, c) ← decodeReg p c
    .ok (.decAddrInReg w ra, c)
  | .incAddrLiteral => do
    let (w, c) ← decodeWidth c
    let (addr, c) ← decodeAddrLiteral p c
    .ok (.incAddrLiteral w addr, c)
  | .decAddrLiteral => do
    let (w, c) ← decodeWidth c
    let (addr, c) ← decodeAddrLiteral p c
    .ok (.decAddrLiteral w addr, c)
  | .moveRegReg => do
    let (rd, c) ← decodeDestReg p c
    let (rs, c) ← decodeReg p c
    .ok (.moveRegReg rd rs, c)
  | .moveRegConst => do
    let (rd, c) ← decodeDestReg p c
    let (w, c) ← decodeWidth c
    let (imm, c) ← fetchBytes p.byteOrder w.bytes c
    .ok (.moveRegConst rd w imm, c)
  | .moveRegAddrInReg => do
    let (rd, c) ← decodeDestReg p c
    let (w, c) ← decodeWidth c
    let (ra, c) ← decodeReg p c
    .ok (.moveRegAddrInReg rd w ra, c)
  | .moveRegAddrLiteral => do
    let (rd, c) ← decodeDestReg p c
    let (w, c) ← decodeWidth c
    let (addr, c) ← decodeAddrLiteral p c
    .ok (.moveRegAddrLiteral rd w addr, c)
  | .moveAddrInRegReg => do
    let (ra, c) ← decodeReg p c
    let (w, c) ← decodeWidth c
    let (rs, c) ← decodeReg p c
    .ok (.moveAddrInRegReg ra w rs, c)

/-- The Decoder on the bytes at the instruction address: the opcode byte, the dispatch, the operands (R86,
R87). An unmapped byte leaves PROGRAM_COUNTER at the instruction address (R88). -/
def decode (p : Params) (bs : List Byte) : Except Reject (Instr × Cursor) := do
  let (op, c) ← fetchByte { pos := 0, rest := bs }
  match p.opcodes.dispatch op with
  | none => .error { error := .unknownOpcode op, consumed := 0 }
  | some h => decodeOperands p h c

/-- The length of the longest instruction in bytes (30_encoding.md R60). -/
def maxLength : Nat := 11

/-- The length of an instruction in bytes (30_encoding.md R63, R64). -/
def Instr.length : Instr → Nat
  | .add => 1
  | .sub => 1
  | .mul => 1
  | .div => 1
  | .mod => 1
  | .incReg _ => 2
  | .incAddrInReg _ _ => 3
  | .incAddrLiteral _ _ => 10
  | .decReg _ => 2
  | .decAddrInReg _ _ => 3
  | .decAddrLiteral _ _ => 10
  | .nop => 1
  | .moveRegReg _ _ => 3
  | .moveRegConst _ w _ => 3 + w.bytes
  | .moveRegAddrInReg _ _ _ => 4
  | .moveRegAddrLiteral _ _ _ => 11
  | .moveAddrInRegReg _ _ _ => 4
  | .exit => 1

/-! ## The encoder -/

/-- The operand bytes of an instruction, in the order of 30_encoding.md R63. -/
def encodeOperands (p : Params) : Instr → List Byte
  | .add => []
  | .sub => []
  | .mul => []
  | .div => []
  | .mod => []
  | .incReg r => [p.regIds.byteOf r]
  | .incAddrInReg w ra => [w.toByte, p.regIds.byteOf ra]
  | .incAddrLiteral w addr => w.toByte :: p.byteOrder.toBytes 8 addr.toNat
  | .decReg r => [p.regIds.byteOf r]
  | .decAddrInReg w ra => [w.toByte, p.regIds.byteOf ra]
  | .decAddrLiteral w addr => w.toByte :: p.byteOrder.toBytes 8 addr.toNat
  | .nop => []
  | .moveRegReg rd rs => [p.regIds.byteOf rd, p.regIds.byteOf rs]
  | .moveRegConst rd w imm => p.regIds.byteOf rd :: w.toByte :: p.byteOrder.toBytes w.bytes imm.toNat
  | .moveRegAddrInReg rd w ra => [p.regIds.byteOf rd, w.toByte, p.regIds.byteOf ra]
  | .moveRegAddrLiteral rd w addr => p.regIds.byteOf rd :: w.toByte :: p.byteOrder.toBytes 8 addr.toNat
  | .moveAddrInRegReg ra w rs => [p.regIds.byteOf ra, w.toByte, p.regIds.byteOf rs]
  | .exit => []

/-- The bytes of an instruction: the opcode byte, then the operand bytes (30_encoding.md R60). -/
def encode (p : Params) (i : Instr) : List Byte :=
  p.opcodes.byteOf i.opcode :: encodeOperands p i

/-! ## The host's view of the table -/

/-- The bytes of an instruction whose bits are `w`, numbered as spec/opcode_table.json numbers them: byte 0 is
bits 7..0, byte 1 is bits 15..8, and so on; every bit from `nbits` on is 0. -/
def tableWordBytes (nbits w : Nat) : List Byte :=
  leBytes maxLength (w % 2 ^ nbits)

/-- What the Decoder, under the spec's default parameters, reads from a word of the opcode table. -/
def decodeTableWord (nbits w : Nat) : Option Instr :=
  match decode .default (tableWordBytes nbits w) with
  | .ok (i, _) => some i
  | .error _ => none

end Sys2Proof
end

