-- ==== Sys2Proof/Machine/State.lean ====
section
/-! DEFINITION. The state of the machine as plain data (spec/10_state.md), the reasons a step can stop, and the
state after construction. -/

namespace Sys2Proof.Machine

/-- The register file: 8 slots of 64 bits, no aliases, no banks (10_state.md R20, R21, R23). -/
structure RegFile where
  a : Word
  b : Word
  pc : Word
  sp : Word
  zf : Word
  sf : Word
  rf : Word
  exit : Word
deriving DecidableEq, Repr

/-- Memory: the bytes that have been written, as (address, byte) pairs with strictly rising addresses
(`Memory.wf`). An unlisted address holds no written byte and reads as `Config.memInit` of the address
(`Memory.readByte`; 20_memory.md R40, R57, log 6). -/
abbrev Memory := List Host.Cell

/-- The six fault kinds with the information each records (60_exceptions.md R170). -/
inductive FaultKind where
  | memoryFault (addr : Word) (size : Nat)
  | invalidOperandSize (b : Byte)
  | unknownOpcode (op : Byte)
  | divideByZero
  | invalidRegister (b : Byte)
  | programCounterWrite (r : Byte)
deriving DecidableEq, Repr

/-- The fault record (60_exceptions.md R178): the kind with its information, the instruction address, and
PROGRAM_COUNTER at the raise. -/
structure FaultRecord where
  kind : FaultKind
  ipc : Word
  pc : Word
deriving DecidableEq, Repr

/-- An execution request `execute(byteCode, size, verbose)` (10_state.md R36, 70_reset_and_hazards.md R191);
`size` is the length of the code (log 10). -/
structure Request where
  code : List Byte
  verbose : Bool
deriving DecidableEq, Repr

/-- One event of the trace port (40_execution_loop.md R89). -/
structure TraceEvent where
  ipc : Word
  op : Byte
deriving DecidableEq, Repr

/-- How a run ended (10_state.md R36, 40_execution_loop.md R92). -/
inductive RunOutcome where
  | halted
  | faulted (record : FaultRecord)
deriving DecidableEq, Repr

/-- Everything the spec gives the machine (spec/10_state.md). -/
structure State where
  /-- the construction parameters, `CAPACITY` among them (R35); no step changes them -/
  params : Params
  /-- the register file (R20) -/
  regs : RegFile
  /-- the memory (20_memory.md R40) -/
  mem : Memory
  /-- whether a run is in progress (R30) -/
  running : Bool
  /-- the diagnostic of the run that faulted (R31) -/
  fault : Option FaultRecord
  /-- the verbosity flag of the current request (R32) -/
  verbose : Bool
  /-- the address of the current instruction (R33) -/
  ipc : Word
  /-- the model's own: the request standing at the execution request port (R36, log 9) -/
  request : Option Request
  /-- the model's own: the events the trace port has emitted, oldest first (R36, log 11) -/
  trace : List TraceEvent
deriving DecidableEq, Repr

/-- Why the machine stops outright. The six faults of the ISA are NOT here: taking one is a next state
(60_exceptions.md R176, log 7). -/
inductive Fault where
  /-- Raised by the step in a state whose parameters are those of no machine the spec describes: `CAPACITY`
  not below 2^64 (00_scope.md R6) or a byte map that is not injective (30_encoding.md R62). Safe: the spec says
  nothing of such a machine (log 8). -/
  | invalidParameters
deriving DecidableEq, Repr

/-- Why a step is refused. -/
inductive Refusal where
  /-- An instruction with no meaning yet; no arm of `exec` answers it. Safe. -/
  | notModelled (mnemonic : String)
  /-- Raised by the step when an execution request stands at the port while a run is in progress
  (70_reset_and_hazards.md R195). Safe: the spec says that no such request can arrive (log 9). -/
  | requestWhileRunning
deriving DecidableEq, Repr

/-- What a step or a meaning answers. -/
abbrev Result := Host.Outcome State Fault Refusal

/-- The state after construction with the parameters `p` (10_state.md R35, 70_reset_and_hazards.md R190). -/
def State.construct (p : Params) : State where
  params := p
  regs := { a := 0, b := 0, pc := 0, sp := 0, zf := 0, sf := 0, rf := 0, exit := 0 }
  mem := []
  running := false
  fault := none
  verbose := false
  ipc := 0
  request := none
  trace := []

/-- The machine right after reset: construction with the spec's default parameters (R7, R35) and the capacity
of log 4. -/
def State.reset : State := State.construct Params.default

end Sys2Proof.Machine
end

