-- ==== Sys2Proof/Machine/Ops.lean ====
section
/-! DEFINITION. The named operations over registers, memory and the stack, and taking a fault. -/

namespace Sys2Proof.Machine

/-! ## The register file (10_state.md R20) -/

/-- `x[r]`. -/
def RegFile.get (f : RegFile) : Reg → Word
  | .a => f.a
  | .b => f.b
  | .pc => f.pc
  | .sp => f.sp
  | .zf => f.zf
  | .sf => f.sf
  | .rf => f.rf
  | .exit => f.exit

/-- `x[r] <- v`. No register is hardwired (R23). -/
def RegFile.set (f : RegFile) (r : Reg) (v : Word) : RegFile :=
  match r with
  | .a => { f with a := v }
  | .b => { f with b := v }
  | .pc => { f with pc := v }
  | .sp => { f with sp := v }
  | .zf => { f with zf := v }
  | .sf => { f with sf := v }
  | .rf => { f with rf := v }
  | .exit => { f with exit := v }

/-- `x[r]` (10_state.md R20). -/
def State.reg (s : State) (r : Reg) : Word := s.regs.get r

/-- `x[r] <- v` (10_state.md R20). -/
def State.setReg (s : State) (r : Reg) (v : Word) : State :=
  { s with regs := s.regs.set r v }

/-! ## Memory as bytes (20_memory.md R40) -/

/-- The byte written at an address, if one was. -/
def Memory.cell? : Memory → Nat → Option Byte
  | [], _ => none
  | (a, b) :: rest, x => if x = a then some b else Memory.cell? rest x

/-- The byte at an address: the last one written, or `MEM_INIT` (20_memory.md R54, R57). -/
def Memory.readByte (m : Memory) (x : Nat) : Byte :=
  (m.cell? x).getD (Config.memInit x)

/-- Write one byte, keeping the addresses rising. -/
def Memory.writeByte : Memory → Nat → Byte → Memory
  | [], x, v => [(x, v)]
  | (a, b) :: rest, x, v =>
    if x < a then (x, v) :: (a, b) :: rest
    else if x = a then (x, v) :: rest
    else (a, b) :: Memory.writeByte rest x v

/-- The `n` bytes from address `x` on. -/
def Memory.readBytes (m : Memory) : Nat → Nat → List Byte
  | _, 0 => []
  | x, n + 1 => m.readByte x :: Memory.readBytes m (x + 1) n

/-- Write a sequence of bytes from address `x` on. -/
def Memory.writeBytes (m : Memory) : Nat → List Byte → Memory
  | _, [] => m
  | x, b :: bs => Memory.writeBytes (m.writeByte x b) (x + 1) bs

/-- The canonical form: strictly rising addresses. An unlisted address has no written byte (`Memory.cell?`), so
no entry can equal what an unlisted address holds. -/
abbrev Memory.wf (m : Memory) : Prop := (m.map Prod.fst).Pairwise (· < ·)

/-! ## Access primitives (20_memory.md R41 to R44) -/

/-- The bounds rule R41, over the naturals: no wrap at 2^64. -/
abbrev State.inBounds (s : State) (addr : Word) (n : Nat) : Prop :=
  addr.toNat + n ≤ s.params.capacity

/-- `trunc_w(v)`, as a 64-bit value (00_scope.md R10). -/
def truncWidth (w : Width) (v : Word) : Word :=
  BitVec.ofNat 64 (v.toNat % 2 ^ (8 * w.bytes))

/-- The value of the `w` bytes at `addr`, zero-extended, with no bounds check. -/
def State.loadValue (s : State) (addr : Word) (w : Width) : Word :=
  s.params.byteOrder.word (s.mem.readBytes addr.toNat w.bytes)

/-- The memory with the low `w` bytes of `v` stored at `addr`, with no bounds check. -/
def State.storeValue (s : State) (addr : Word) (w : Width) (v : Word) : State :=
  { s with mem := s.mem.writeBytes addr.toNat (s.params.byteOrder.toBytes w.bytes v.toNat) }

/-- `MemRead(addr, w)` (R42). -/
def State.memRead (s : State) (addr : Word) (w : Width) : Except FaultKind Word :=
  if s.inBounds addr w.bytes then .ok (s.loadValue addr w)
  else .error (.memoryFault addr w.bytes)

/-- `MemWrite(addr, w, trunc_w(v))` (R43). -/
def State.memWrite (s : State) (addr : Word) (w : Width) (v : Word) : Except FaultKind State :=
  if s.inBounds addr w.bytes then .ok (s.storeValue addr w v)
  else .error (.memoryFault addr w.bytes)

/-- `MemModify(addr, w, f)` (R44): one bounds check, then the read and the write. The result comes with the
value written. -/
def State.memModify (s : State) (addr : Word) (w : Width) (f : Word → Word) :
    Except FaultKind (Word × State) :=
  if s.inBounds addr w.bytes then
    let v := f (s.loadValue addr w)
    .ok (v, s.storeValue addr w v)
  else .error (.memoryFault addr w.bytes)

/-! ## Stack primitives (20_memory.md R50 to R53) -/

/-- `pushBytes(bytes, n)` with n the number of bytes (R50). -/
def State.pushBytes (s : State) (bytes : List Byte) : Except FaultKind State :=
  if s.inBounds (s.reg .sp) bytes.length then
    let t := { s with mem := s.mem.writeBytes (s.reg .sp).toNat bytes }
    .ok (t.setReg .sp (s.reg .sp + BitVec.ofNat 64 bytes.length))
  else .error (.memoryFault (s.reg .sp) bytes.length)

/-- `popBytes(n)` (R51). -/
def State.popBytes (s : State) (n : Nat) : Except FaultKind (List Byte × State) :=
  if (s.reg .sp).toNat < n ∨ s.params.capacity < (s.reg .sp).toNat then
    .error (.memoryFault (s.reg .sp) n)
  else
    let sp := s.reg .sp - BitVec.ofNat 64 n
    .ok (s.mem.readBytes sp.toNat n, s.setReg .sp sp)

/-- `push64(value)` (R52). -/
def State.push64 (s : State) (value : Word) : Except FaultKind State :=
  s.pushBytes (s.params.byteOrder.toBytes 8 value.toNat)

/-! ## Taking a fault (60_exceptions.md R170, R176, R178) -/

/-- The cause code of a fault kind (R170). -/
def FaultKind.code : FaultKind → Nat
  | .memoryFault _ _ => 1
  | .invalidOperandSize _ => 2
  | .unknownOpcode _ => 3
  | .divideByZero => 4
  | .invalidRegister _ => 5
  | .programCounterWrite _ => 6

/-- Record a fault with the given instruction address and end the run (R176, R178). -/
def State.recordFault (s : State) (k : FaultKind) (ipc : Word) : State :=
  { s with fault := some { kind := k, ipc := ipc, pc := s.reg .pc }, running := false }

/-- `raise K(info)` (R176): everything else stays as last written. There is no return from a fault (R181): only
an execution request starts a new run (`State.load`). -/
def State.raise (s : State) (k : FaultKind) : State := s.recordFault k s.ipc

/-- How the last run ended, or `none` while one is in progress (40_execution_loop.md R92). Before the first run
nothing has ended and the answer means nothing. -/
def State.outcome (s : State) : Option RunOutcome :=
  if s.running then none
  else match s.fault with
    | none => some .halted
    | some r => some (.faulted r)

end Sys2Proof.Machine
end

