-- ==== Sys2Proof/Machine/Flags.lean ====
section
/-! DEFINITION. The flag-update logic (10_state.md R26, R27). -/

namespace Sys2Proof.Machine

/-- A boolean flag as a register value. -/
def flagWord (b : Bool) : Word := if b then 1 else 0

/-- ZF of a result: 1 if it is zero (R27). -/
def zeroFlag (v : Word) : Word := flagWord (decide (v = 0))

/-- SF of a `w`-byte result: its top bit, bit 8w-1 (R27; 00_scope.md R9). -/
def signFlag (w : Width) (v : Word) : Word := flagWord (v.getLsbD (8 * w.bytes - 1))

/-- `SetFlags(v, 8w)` for a `w`-byte result held zero-extended (R27); a register result has w = 8. -/
def State.setFlags (s : State) (w : Width) (v : Word) : State :=
  ((s.setReg .zf (zeroFlag v)).setReg .sf (signFlag w v)).setReg .rf 0

end Sys2Proof.Machine
end

