-- ==== Sys2Proof/Machine/Operands.lean ====
section
/-! DEFINITION. The operand forms (43_data_movement.md R145) and the shared operations of the handlers over
them. A handler starts with PROGRAM_COUNTER just past the opcode byte (42_incdec.md, 43_data_movement.md,
introductions) and consumes its operand bytes before it reads a register (40_execution_loop.md R93). -/

namespace Sys2Proof.Machine

/-- PROGRAM_COUNTER moves past `n` operand bytes (40_execution_loop.md R80, R81). -/
def State.consume (s : State) (n : Nat) : State :=
  s.setReg .pc (s.reg .pc + BitVec.ofNat 64 n)

/-- Go on with the handler, or take the fault of an access. -/
def orRaise {α : Type} (s : State) (r : Except FaultKind α) (k : α → State) : Result :=
  match r with
  | .ok a => .next (k a)
  | .error f => .next (s.raise f)

/-- A handler with a destination operand, which is its first operand byte in every format that has one: under
the policy `fault` a destination of PROGRAM_COUNTER raises `ProgramCounterWrite` as soon as that byte is consumed
(40_execution_loop.md R83, 60_exceptions.md R177; log 13); otherwise the handler goes on. -/
def withDest (rd : Reg) (s : State) (k : Result) : Result :=
  if rd = .pc ∧ s.params.pcWritePolicy = .fault then
    .next ((s.consume 1).raise (.programCounterWrite (s.params.regIds.byteOf rd)))
  else k

/-- ADD, SUB, MUL, DIV and MOD write their result to A and then the flags (41_arithmetic.md). -/
def State.writeA (s : State) (v : Word) : State := (s.setReg .a v).setFlags .w8 v

/-- INC and DEC of a register: the target first, the flags after it (42_incdec.md R120, R121). `s` stands past
the operand byte. -/
def State.modifyReg (s : State) (r : Reg) (f : Word → Word) : State :=
  (s.setReg r (f (s.reg r))).setFlags .w8 (f (s.reg r))

/-- INC and DEC of a `w`-byte value at `addr` (42_incdec.md R122 to R125). `s` stands past the operand bytes. -/
def State.modifyMemory (s : State) (w : Width) (addr : Word) (f : Word → Word) : Result :=
  orRaise s (s.memModify addr w fun v => truncWidth w (f v)) fun vt => vt.2.setFlags w vt.1

/-- Load a `w`-byte value at `addr` into a register, zero-extended (43_data_movement.md R142, R143). -/
def State.loadReg (s : State) (rd : Reg) (w : Width) (addr : Word) : Result :=
  orRaise s (s.memRead addr w) fun v => s.setReg rd v

/-- Store the low `w` bytes of a register at `addr` (43_data_movement.md R144). -/
def State.storeReg (s : State) (w : Width) (addr : Word) (rs : Reg) : Result :=
  orRaise s (s.memWrite addr w (s.reg rs)) id

end Sys2Proof.Machine
end

