-- ==== Sys2Proof/Machine/Arithmetic.lean ====
section
/-! DEFINITION. ADD, SUB, MUL, DIV, MOD (spec/41_arithmetic.md). All are format O. -/

namespace Sys2Proof.Machine

/-- ADD (R100). -/
def execAdd (s : State) : Result := .next (s.writeA (s.reg .a + s.reg .b))

/-- SUB (R101). -/
def execSub (s : State) : Result := .next (s.writeA (s.reg .a - s.reg .b))

/-- MUL (R102). -/
def execMul (s : State) : Result := .next (s.writeA (s.reg .a * s.reg .b))

/-- DIV (R103): unsigned, RF gets the remainder after the flags. -/
def execDiv (s : State) : Result :=
  if s.reg .b = 0 then .next (s.raise .divideByZero)
  else .next ((s.writeA (s.reg .a / s.reg .b)).setReg .rf (s.reg .a % s.reg .b))

/-- MOD (R104): unsigned, RF is 0. -/
def execMod (s : State) : Result :=
  if s.reg .b = 0 then .next (s.raise .divideByZero)
  else .next (s.writeA (s.reg .a % s.reg .b))

end Sys2Proof.Machine
end

