-- ==== Sys2Proof/Machine/Control.lean ====
section
/-! DEFINITION. NOP and EXIT (spec/44_control.md). -/

namespace Sys2Proof.Machine

/-- NOP (R160): the opcode byte is already consumed and nothing else changes. -/
def execNop (s : State) : Result := .next s

/-- EXIT (R161): a write of 1 to the EXIT register; the loop's halt check ends the run
(`State.endInstruction`). -/
def execExit (s : State) : Result := .next (s.setReg .exit 1)

end Sys2Proof.Machine
end

