-- ==== Sys2Proof/Machine/IncDec.lean ====
section
/-! DEFINITION. INC and DEC of a register and of memory (spec/42_incdec.md). -/

namespace Sys2Proof.Machine

/-- INC_REG (R120). -/
def execIncReg (r : Reg) (s : State) : Result :=
  withDest r s (.next ((s.consume 1).modifyReg r (· + 1)))

/-- DEC_REG (R121). -/
def execDecReg (r : Reg) (s : State) : Result :=
  withDest r s (.next ((s.consume 1).modifyReg r (· - 1)))

/-- INC_ADDR_IN_REG (R122). -/
def execIncAddrInReg (w : Width) (ra : Reg) (s : State) : Result :=
  (s.consume 2).modifyMemory w ((s.consume 2).reg ra) (· + 1)

/-- INC_ADDR_LITERAL (R123). -/
def execIncAddrLiteral (w : Width) (addr : Word) (s : State) : Result :=
  (s.consume 9).modifyMemory w addr (· + 1)

/-- DEC_ADDR_IN_REG (R124). -/
def execDecAddrInReg (w : Width) (ra : Reg) (s : State) : Result :=
  (s.consume 2).modifyMemory w ((s.consume 2).reg ra) (· - 1)

/-- DEC_ADDR_LITERAL (R125). -/
def execDecAddrLiteral (w : Width) (addr : Word) (s : State) : Result :=
  (s.consume 9).modifyMemory w addr (· - 1)

end Sys2Proof.Machine
end

