-- ==== Sys2Proof/Machine/Move.lean ====
section
/-! DEFINITION. The five MOVE forms (spec/43_data_movement.md). None writes a flag. -/

namespace Sys2Proof.Machine

/-- MOVE_REG_REG (R140). -/
def execMoveRegReg (rd rs : Reg) (s : State) : Result :=
  withDest rd s (.next ((s.consume 2).setReg rd ((s.consume 2).reg rs)))

/-- MOVE_REG_CONST (R141). The immediate is held zero-extended. -/
def execMoveRegConst (rd : Reg) (w : Width) (imm : Word) (s : State) : Result :=
  withDest rd s (.next ((s.consume (2 + w.bytes)).setReg rd imm))

/-- MOVE_REG_ADDR_IN_REG (R142). -/
def execMoveRegAddrInReg (rd : Reg) (w : Width) (ra : Reg) (s : State) : Result :=
  withDest rd s ((s.consume 3).loadReg rd w ((s.consume 3).reg ra))

/-- MOVE_REG_ADDR_LITERAL (R143). -/
def execMoveRegAddrLiteral (rd : Reg) (w : Width) (addr : Word) (s : State) : Result :=
  withDest rd s ((s.consume 10).loadReg rd w addr)

/-- MOVE_ADDR_IN_REG_REG (R144). -/
def execMoveAddrInRegReg (ra : Reg) (w : Width) (rs : Reg) (s : State) : Result :=
  (s.consume 3).storeReg w ((s.consume 3).reg ra) rs

end Sys2Proof.Machine
end

