-- ==== Sys2Proof/Machine/Dispatch.lean ====
section
/-! DEFINITION. The dispatch of 40_execution_loop.md R86: one arm per instruction. -/

namespace Sys2Proof.Machine

/-- The handler of each instruction, run with PROGRAM_COUNTER just past the opcode byte (log 12). -/
def exec (i : Instr) (s : State) : Host.Outcome State Fault Refusal :=
  match i with
  | .add => Sys2Proof.Machine.execAdd s
  | .sub => Sys2Proof.Machine.execSub s
  | .mul => Sys2Proof.Machine.execMul s
  | .div => Sys2Proof.Machine.execDiv s
  | .mod => Sys2Proof.Machine.execMod s
  | .incReg r => Sys2Proof.Machine.execIncReg r s
  | .incAddrInReg w ra => Sys2Proof.Machine.execIncAddrInReg w ra s
  | .incAddrLiteral w addr => Sys2Proof.Machine.execIncAddrLiteral w addr s
  | .decReg r => Sys2Proof.Machine.execDecReg r s
  | .decAddrInReg w ra => Sys2Proof.Machine.execDecAddrInReg w ra s
  | .decAddrLiteral w addr => Sys2Proof.Machine.execDecAddrLiteral w addr s
  | .nop => Sys2Proof.Machine.execNop s
  | .moveRegReg rd rs => Sys2Proof.Machine.execMoveRegReg rd rs s
  | .moveRegConst rd w imm => Sys2Proof.Machine.execMoveRegConst rd w imm s
  | .moveRegAddrInReg rd w ra => Sys2Proof.Machine.execMoveRegAddrInReg rd w ra s
  | .moveRegAddrLiteral rd w addr => Sys2Proof.Machine.execMoveRegAddrLiteral rd w addr s
  | .moveAddrInRegReg ra w rs => Sys2Proof.Machine.execMoveAddrInRegReg ra w rs s
  | .exit => Sys2Proof.Machine.execExit s

end Sys2Proof.Machine
end

