-- ==== Sys2Proof/Machine/Loop.lean ====
section
/-! DEFINITION. The execution loop (spec/40_execution_loop.md), the execution request (70_reset_and_hazards.md
R191) and one cycle of the block. `Step.lean` only calls these. -/

namespace Sys2Proof.Machine

/-! ## Fetch (R80, R87) -/

/-- The bytes the Decoder can see: those from PROGRAM_COUNTER to the end of memory, no more than the longest
instruction has. Reading them before the operands are decoded changes nothing, since no byte is written until
the operands are consumed and a read has no side effect (20_memory.md R42, R56; log 12). -/
def State.fetchWindow (s : State) : List Byte :=
  s.mem.readBytes (s.reg .pc).toNat (min maxLength (s.params.capacity - (s.reg .pc).toNat))

/-- `ipc <- x[PC]` (R87). -/
def State.recordIpc (s : State) : State := { s with ipc := s.reg .pc }

/-- One event at the trace port while `verbose` is true (R89). -/
def State.emitTrace (s : State) (op : Byte) : State :=
  if s.verbose then { s with trace := s.trace ++ [{ ipc := s.ipc, op := op }] } else s

/-- The state a handler starts in: the instruction address recorded, PROGRAM_COUNTER past the opcode byte, the
trace event emitted (R87). -/
def State.afterOpcode (s : State) : State :=
  (s.recordIpc.consume 1).emitTrace (s.mem.readByte (s.reg .pc).toNat)

/-- The fault kind of a decode that stopped, with PROGRAM_COUNTER at `pc` (60_exceptions.md R171 to R177). -/
def decodeFault (e : DecodeError) (pc : Word) : FaultKind :=
  match e with
  | .endOfMemory n => .memoryFault pc n
  | .unknownOpcode op => .unknownOpcode op
  | .invalidRegister b => .invalidRegister b
  | .programCounterWrite b => .programCounterWrite b
  | .invalidOperandSize b => .invalidOperandSize b

/-- The instruction address recorded and, unless the opcode fetch itself faults, the opcode fetched and traced
(R80, R87, R89). -/
def State.fetchOpcode (s : State) : State :=
  if s.inBounds (s.reg .pc) 1 then s.afterOpcode else s.recordIpc

/-- The fault of a decode that stopped. PROGRAM_COUNTER is left past the bytes consumed; an unmapped opcode and
an opcode fetch that faults consume none (R88, R94). -/
def State.raiseDecode (s : State) (r : Reject) : State :=
  let pc := s.reg .pc + BitVec.ofNat 64 r.consumed
  (s.fetchOpcode.setReg .pc pc).raise (decodeFault r.error pc)

/-! ## The end of a step (R90) -/

/-- The halt check, then the volatile reset of EXIT (R90). -/
def State.endInstruction (s : State) : State :=
  { s.setReg .exit 0 with running := s.running && decide (s.reg .exit = 0) }

/-- After the handler: the halt check and the volatile reset, unless the handler raised a fault, which ends the
run at once (R87, 60_exceptions.md R176). A handler that starts with `running` true leaves it true except by a
raise. -/
def State.finish (s : State) : State := if s.running then s.endInstruction else s

/-- What the loop does with a handler's answer. -/
def finishResult : Result → Result
  | .next t => .next t.finish
  | .fault f => .fault f
  | .refused r => .refused r

/-- `Step()` (R87), taken while `running` is true. -/
def State.stepInstruction (s : State) : Result :=
  match decode s.params s.fetchWindow with
  | .error r => .next (s.raiseDecode r)
  | .ok (i, _) => finishResult (exec i s.afterOpcode)

/-! ## The execution request (70_reset_and_hazards.md R191, R192) -/

/-- The entry of an execution request: `fault` cleared, `verbose` set, the code pushed, PROGRAM_COUNTER at the
code, `running` true. If the code does not fit, only the load fault is recorded (R192). The request leaves the
port. -/
def State.load (s : State) (r : Request) : State :=
  let t : State := { s with fault := none, verbose := r.verbose, request := none }
  match t.pushBytes r.code with
  | .ok u => { u.setReg .pc (s.reg .sp) with running := true }
  | .error k => t.recordFault k (s.reg .pc)

/-- The host places a request at the port (10_state.md R36). -/
def State.submit (s : State) (r : Request) : State := { s with request := some r }

/-! ## One cycle -/

/-- One step of the block. A request is taken while no run is in progress and refused while one is (R195); with
none, a run goes on by one instruction (R91) and an idle block keeps its state (60_exceptions.md R185, log 9). -/
def State.cycle (s : State) : Result :=
  if s.params.wf then
    match s.request with
    | some r => if s.running then .refused .requestWhileRunning else .next (s.load r)
    | none => if s.running then s.stepInstruction else .next s
  else .fault .invalidParameters

/-- The state with the bytes `bs` stored where the next instruction is fetched, as far as memory reaches, and a
run in progress (log 9). -/
def State.withCode (s : State) (bs : List Byte) : State :=
  { s with
    mem := s.mem.writeBytes (s.reg .pc).toNat (bs.take (s.params.capacity - (s.reg .pc).toNat))
    running := true
    request := none }

end Sys2Proof.Machine
end

