-- ==== Sys2Proof/Machine/Step.lean ====
section
/-! DEFINITION. The machine's step, and the host's way to place an instruction. -/

namespace Sys2Proof.Machine

/-- One step of the machine (`State.cycle`). -/
def step (s : State) : Host.Outcome State Fault Refusal := s.cycle

/-- The state with one instruction of the opcode table stored where the next step fetches it, and a run in
progress, so that the very next step runs it. It stands for the load of an execution request (log 9). -/
def State.withFetchWord (s : State) (nbits w : Nat) : State :=
  s.withCode (tableWordBytes nbits w)

end Sys2Proof.Machine
end

