-- ==== Sys2Proof/Safety.lean ====
section
/-! DEFINITION. The terms in which statements about the machine are made: what stays the same, what taking a
fault leaves, the invariant of the machine, and how a run ends. -/

namespace Sys2Proof.Machine

/-! ## What stays the same -/

/-- Everything that is neither a register nor a byte of memory is the same. -/
def State.SameContext (s t : State) : Prop :=
  t.params = s.params ∧ t.running = s.running ∧ t.fault = s.fault ∧ t.verbose = s.verbose ∧ t.ipc = s.ipc ∧
    t.request = s.request ∧ t.trace = s.trace

/-- Every register is the same but those listed. -/
def State.SameRegsExcept (s t : State) (rs : List Reg) : Prop := ∀ r, r ∉ rs → t.reg r = s.reg r

/-- Every byte of memory reads the same. -/
def State.SameBytes (s t : State) : Prop := ∀ x, t.mem.readByte x = s.mem.readByte x

/-- Every byte of memory outside the `n` bytes from `addr` on reads the same. -/
def State.SameBytesOutside (s t : State) (addr n : Nat) : Prop :=
  ∀ x, x < addr ∨ addr + n ≤ x → t.mem.readByte x = s.mem.readByte x

/-- Nothing changes but the registers listed: the frame of a form that stores nothing. -/
def State.OnlyRegs (s t : State) (rs : List Reg) : Prop :=
  s.SameContext t ∧ s.SameRegsExcept t rs ∧ s.SameBytes t

/-- Nothing changes but the registers listed and the `w` bytes at `addr`: the frame of a form that stores. -/
def State.OnlyRegsAndBytes (s t : State) (rs : List Reg) (addr : Word) (w : Width) : Prop :=
  s.SameContext t ∧ s.SameRegsExcept t rs ∧ s.SameBytesOutside t addr.toNat w.bytes

/-! ## Flags and faults -/

/-- ZF, SF and RF are those of the `w`-byte result `v` (10_state.md R27). -/
def State.FlagsOf (t : State) (w : Width) (v : Nat) : Prop :=
  t.reg .zf = (if v = 0 then 1 else 0) ∧ t.reg .sf = (if v.testBit (8 * w.bytes - 1) then 1 else 0) ∧
    t.reg .rf = 0

/-- From `s` the fault `k` was taken with the instruction address `ipc` and PROGRAM_COUNTER at `pc`: the record is
written, the run has ended, and no other register and no byte of memory changed (60_exceptions.md R176, R178). -/
def State.Raised (s t : State) (k : FaultKind) (ipc pc : Word) : Prop :=
  t.fault = some { kind := k, ipc := ipc, pc := pc } ∧ t.running = false ∧ t.reg .pc = pc ∧
    s.SameRegsExcept t [.pc] ∧ s.SameBytes t ∧ t.params = s.params ∧ t.verbose = s.verbose ∧ t.ipc = ipc ∧
    t.request = s.request

/-- Where byte `k` of a `w`-byte value lies, from its lowest address on (20_memory.md R45 for `little`; log 3 for
`big`). -/
def byteOffset (o : ByteOrder) (w : Width) (k : Nat) : Nat :=
  match o with
  | .little => k
  | .big => w.bytes - 1 - k

/-- The policy admits `rd` as a destination (40_execution_loop.md R83). -/
def State.AdmitsDest (s : State) (rd : Reg) : Prop := rd = .pc → s.params.pcWritePolicy = .jump

/-! ## Runs -/

/-- The next step of the machine is one instruction (40_execution_loop.md R87, R91). -/
def State.Ready (s : State) : Prop := s.params.wf = true ∧ s.request = none ∧ s.running = true

/-- `k` steps from `s` meet no fault of the ISA. -/
def State.SafeRun (s : State) (k : Nat) : Prop :=
  ∃ t : State, Host.Core.run Sys2Proof.core k s = .next t ∧ t.fault = none

/-- The run in progress in `s` ends within `k` steps (40_execution_loop.md R92). -/
def State.EndsWithin (s : State) (k : Nat) : Prop :=
  ∃ t : State, Host.Core.run Sys2Proof.core k s = .next t ∧ t.running = false

/-- What holds in every state a run passes through, between two steps. -/
structure State.Inv (s : State) : Prop where
  /-- the parameters are those of a machine (00_scope.md R6) -/
  params : s.params.wf = true
  /-- the memory is in its canonical form -/
  memory : s.mem.wf
  /-- every byte of memory lies below `CAPACITY` (20_memory.md R40) -/
  inMemory : ∀ c ∈ s.mem, c.1 < s.params.capacity
  /-- EXIT is 0 at the start of every instruction (10_state.md R37) -/
  exitClear : s.reg .exit = 0
  /-- no fault is on record while a run is in progress (10_state.md R31) -/
  faultEndsRun : s.running = true → s.fault = none
  /-- without jumps PROGRAM_COUNTER never passes the end of memory (40_execution_loop.md R95) -/
  pcInMemory : s.params.pcWritePolicy = .fault → (s.reg .pc).toNat ≤ s.params.capacity

end Sys2Proof.Machine
end

