-- ==== Sys2Proof/Certificates/Slice0/Obligations.lean ====
section
/-! DEFINITION. The statements for the provers. Each says which rule or section of spec/ it formalises. -/

open Sys2Proof Sys2Proof.Machine

/-! ## Construction -/

/-- 10_state.md R35. -/
def Obligations.ConstructionValues : Prop :=
  ∀ p : Params,
    (∀ r, (State.construct p).reg r = 0) ∧ (State.construct p).running = false ∧
    (State.construct p).fault = none ∧ (State.construct p).verbose = false ∧ (State.construct p).ipc = 0 ∧
    (∀ x, (State.construct p).mem.readByte x = Config.memInit x) ∧
    (State.construct p).params.capacity = p.capacity

/-- The invariant holds after construction with any capacity below 2^64, and at `State.reset` (70_reset_and_hazards.md
section 1; the capacity of `State.reset` is the model's choice, log 4). -/
def Obligations.ConstructionMeetsInvariant : Prop :=
  (∀ p : Params, p.wf = true → (State.construct p).Inv) ∧
  (∀ n, n < 2 ^ 64 → (State.construct (Params.ofCapacity n)).Inv) ∧ State.reset.Inv

/-! ## Memory and stack primitives -/

/-- 20_memory.md R41. An error carries no state, so no byte is read or written. -/
def Obligations.AccessOutOfBoundsFaults : Prop :=
  ∀ (s : State) (addr : Word),
    (∀ w : Width,
      (addr.toNat + w.bytes ≤ s.params.capacity →
        (∃ v, s.memRead addr w = .ok v) ∧ (∀ v, ∃ t, s.memWrite addr w v = .ok t) ∧
        ∀ f, ∃ vt, s.memModify addr w f = .ok vt) ∧
      (s.params.capacity < addr.toNat + w.bytes →
        s.memRead addr w = .error (.memoryFault addr w.bytes) ∧
        (∀ v, s.memWrite addr w v = .error (.memoryFault addr w.bytes)) ∧
        ∀ f, s.memModify addr w f = .error (.memoryFault addr w.bytes))) ∧
    (∀ bs : List Byte, s.reg .sp = addr → 1 ≤ bs.length →
      (addr.toNat + bs.length ≤ s.params.capacity → ∃ t, s.pushBytes bs = .ok t) ∧
      (s.params.capacity < addr.toNat + bs.length →
        s.pushBytes bs = .error (.memoryFault addr bs.length)))

/-- 20_memory.md R42, under the little-endian order of R45: the value is the sum of byte k times 2^(8k). -/
def Obligations.MemReadGivesLittleEndianValue : Prop :=
  ∀ (s : State) (addr : Word) (w : Width), s.params.byteOrder = .little →
    (addr.toNat + w.bytes ≤ s.params.capacity →
      ∃ v, s.memRead addr w = .ok v ∧
        v.toNat = ((List.range w.bytes).map fun k => (s.mem.readByte (addr.toNat + k)).toNat * 2 ^ (8 * k)).sum) ∧
    (s.params.capacity < addr.toNat + w.bytes → s.memRead addr w = .error (.memoryFault addr w.bytes))

/-- 20_memory.md R43, under the little-endian order of R45: byte k of the value goes to addr + k, and no other byte
and no register changes. -/
def Obligations.MemWriteStoresLittleEndianBytes : Prop :=
  ∀ (s : State) (addr : Word) (w : Width) (v : Word), s.params.byteOrder = .little →
    (addr.toNat + w.bytes ≤ s.params.capacity →
      ∃ t, s.memWrite addr w v = .ok t ∧
        (∀ k < w.bytes, t.mem.readByte (addr.toNat + k) = v.extractLsb' (8 * k) 8) ∧
        s.OnlyRegsAndBytes t [] addr w) ∧
    (s.params.capacity < addr.toNat + w.bytes → s.memWrite addr w v = .error (.memoryFault addr w.bytes))

/-- 20_memory.md section 5: a read returns the most recent write, in either byte order (`big` is the model's reading
of the parameter, log 3). -/
def Obligations.StoreThenLoadGivesLowBytes : Prop :=
  ∀ (s t : State) (addr : Word) (w : Width) (v : Word), s.memWrite addr w v = .ok t →
    ∃ u, t.memRead addr w = .ok u ∧ u.toNat = v.toNat % 2 ^ (8 * w.bytes)

/-- 20_memory.md R44. -/
def Obligations.MemModifyReadsThenWritesOnce : Prop :=
  ∀ (s : State) (addr : Word) (w : Width) (f : Word → Word),
    (addr.toNat + w.bytes ≤ s.params.capacity →
      ∃ v t, s.memRead addr w = .ok v ∧ s.memWrite addr w (f v) = .ok t ∧ s.memModify addr w f = .ok (f v, t)) ∧
    (s.params.capacity < addr.toNat + w.bytes → s.memModify addr w f = .error (.memoryFault addr w.bytes))

/-- 20_memory.md R50. -/
def Obligations.PushBytesWritesAtStackPointer : Prop :=
  ∀ (s : State) (bs : List Byte), s.params.capacity < 2 ^ 64 →
    ((s.reg .sp).toNat + bs.length ≤ s.params.capacity →
      ∃ t, s.pushBytes bs = .ok t ∧ (t.reg .sp).toNat = (s.reg .sp).toNat + bs.length ∧
        t.mem.readBytes (s.reg .sp).toNat bs.length = bs ∧ s.SameRegsExcept t [.sp] ∧
        s.SameBytesOutside t (s.reg .sp).toNat bs.length ∧ s.SameContext t) ∧
    (s.params.capacity < (s.reg .sp).toNat + bs.length →
      s.pushBytes bs = .error (.memoryFault (s.reg .sp) bs.length))

/-- 20_memory.md R51. -/
def Obligations.PopBytesReadsBelowStackPointer : Prop :=
  ∀ (s : State) (n : Nat),
    (n ≤ (s.reg .sp).toNat ∧ (s.reg .sp).toNat ≤ s.params.capacity →
      ∃ bs t, s.popBytes n = .ok (bs, t) ∧ (t.reg .sp).toNat = (s.reg .sp).toNat - n ∧
        bs = s.mem.readBytes ((s.reg .sp).toNat - n) n ∧ s.OnlyRegs t [.sp]) ∧
    ((s.reg .sp).toNat < n ∨ s.params.capacity < (s.reg .sp).toNat →
      s.popBytes n = .error (.memoryFault (s.reg .sp) n))

/-- 20_memory.md R52, under the little-endian order of R45. -/
def Obligations.PushWordPushesItsEightBytes : Prop :=
  ∀ (s : State) (v : Word), s.params.byteOrder = .little →
    s.push64 v = s.pushBytes ((List.range 8).map fun k => v.extractLsb' (8 * k) 8)

/-- 20_memory.md section 4: a pop just after a push gives back the bytes and the stack pointer. -/
def Obligations.PopUndoesPush : Prop :=
  ∀ (s t : State) (bs : List Byte), s.params.capacity < 2 ^ 64 → s.pushBytes bs = .ok t →
    ∃ u, t.popBytes bs.length = .ok (bs, u) ∧ u.reg .sp = s.reg .sp

/-! ## Arithmetic: each is the handler, run with PROGRAM_COUNTER past the opcode byte -/

/-- 41_arithmetic.md R100. -/
def Obligations.AddWritesSumAndFlags : Prop :=
  encode .default .add = [0x00] ∧
  ∀ s : State, ∃ t, exec .add s = .next t ∧
    (t.reg .a).toNat = ((s.reg .a).toNat + (s.reg .b).toNat) % 2 ^ 64 ∧
    t.FlagsOf .w8 (t.reg .a).toNat ∧ s.OnlyRegs t [.a, .zf, .sf, .rf]

/-- 41_arithmetic.md R101. -/
def Obligations.SubWritesDifferenceAndFlags : Prop :=
  encode .default .sub = [0x01] ∧
  ∀ s : State, ∃ t, exec .sub s = .next t ∧
    ((t.reg .a).toNat : Int) = ((s.reg .a).toNat - (s.reg .b).toNat : Int) % 2 ^ 64 ∧
    t.FlagsOf .w8 (t.reg .a).toNat ∧ s.OnlyRegs t [.a, .zf, .sf, .rf]

/-- 41_arithmetic.md R102. -/
def Obligations.MulWritesLowProductAndFlags : Prop :=
  encode .default .mul = [0x02] ∧
  ∀ s : State, ∃ t, exec .mul s = .next t ∧
    (t.reg .a).toNat = ((s.reg .a).toNat * (s.reg .b).toNat) % 2 ^ 64 ∧
    t.FlagsOf .w8 (t.reg .a).toNat ∧ s.OnlyRegs t [.a, .zf, .sf, .rf]

/-- 41_arithmetic.md R103: RF is the remainder, not a flag; division by zero writes nothing. -/
def Obligations.DivWritesQuotientAndRemainder : Prop :=
  encode .default .div = [0x03] ∧
  (∀ s : State, s.reg .b ≠ 0 → ∃ t, exec .div s = .next t ∧
    (t.reg .a).toNat = (s.reg .a).toNat / (s.reg .b).toNat ∧
    (t.reg .rf).toNat = (s.reg .a).toNat % (s.reg .b).toNat ∧
    t.reg .zf = (if t.reg .a = 0 then 1 else 0) ∧
    t.reg .sf = (if (t.reg .a).toNat.testBit 63 then 1 else 0) ∧ s.OnlyRegs t [.a, .zf, .sf, .rf]) ∧
  (∀ s : State, s.reg .b = 0 → ∃ t, exec .div s = .next t ∧
    s.Raised t .divideByZero s.ipc (s.reg .pc) ∧ t.trace = s.trace)

/-- 41_arithmetic.md R104: RF is 0, although A holds the remainder. -/
def Obligations.ModWritesRemainderAndFlags : Prop :=
  encode .default .mod = [0x04] ∧
  (∀ s : State, s.reg .b ≠ 0 → ∃ t, exec .mod s = .next t ∧
    (t.reg .a).toNat = (s.reg .a).toNat % (s.reg .b).toNat ∧
    t.FlagsOf .w8 (t.reg .a).toNat ∧ s.OnlyRegs t [.a, .zf, .sf, .rf]) ∧
  (∀ s : State, s.reg .b = 0 → ∃ t, exec .mod s = .next t ∧
    s.Raised t .divideByZero s.ipc (s.reg .pc) ∧ t.trace = s.trace)

/-- 60_exceptions.md R174. -/
def Obligations.DivideByZeroRaises : Prop :=
  ∀ (i : Instr) (s : State), i = .div ∨ i = .mod → s.reg .b = 0 →
    ∃ t, exec i s = .next t ∧ s.Raised t .divideByZero s.ipc (s.reg .pc) ∧ t.trace = s.trace

/-- 41_arithmetic.md, integer arithmetic laws: DIV and MOD agree, and a = q * b + rem with rem < b. -/
def Obligations.DivAndModSatisfyDivisionLaw : Prop :=
  ∀ s : State, s.reg .b ≠ 0 → ∃ t u, exec .div s = .next t ∧ exec .mod s = .next u ∧
    (s.reg .a).toNat = (t.reg .a).toNat * (s.reg .b).toNat + (u.reg .a).toNat ∧
    (u.reg .a).toNat < (s.reg .b).toNat ∧ t.reg .rf = u.reg .a ∧ u.reg .rf = 0

/-! ## Increment and decrement -/

/-- 42_incdec.md section 1, INC_REG, with PROGRAM_COUNTER as target under `jump`: the flags are written after the
target, so a flag register keeps the flag's value. -/
def Obligations.IncRegAddsOneThenSetsFlags : Prop :=
  ∀ (r : Reg) (s : State), s.AdmitsDest r →
    ∃ t v, exec (.incReg r) s = .next t ∧ v = (((s.consume 1).reg r).toNat + 1) % 2 ^ 64 ∧
      (r ∉ [.zf, .sf, .rf] → (t.reg r).toNat = v) ∧ t.FlagsOf .w8 v ∧
      (r ≠ .pc → t.reg .pc = s.reg .pc + 1) ∧ s.OnlyRegs t [r, .zf, .sf, .rf, .pc]

/-- 42_incdec.md section 1, DEC_REG. -/
def Obligations.DecRegSubtractsOneThenSetsFlags : Prop :=
  ∀ (r : Reg) (s : State), s.AdmitsDest r →
    ∃ t v, exec (.decReg r) s = .next t ∧ v = (((s.consume 1).reg r).toNat + (2 ^ 64 - 1)) % 2 ^ 64 ∧
      (r ∉ [.zf, .sf, .rf] → (t.reg r).toNat = v) ∧ t.FlagsOf .w8 v ∧
      (r ≠ .pc → t.reg .pc = s.reg .pc + 1) ∧ s.OnlyRegs t [r, .zf, .sf, .rf, .pc]

/-- 42_incdec.md section 2, INC_ADDR_IN_REG and INC_ADDR_LITERAL: the w-byte value, the narrow flags, and nothing
else. -/
def Obligations.IncMemoryAddsOneAndSetsNarrowFlags : Prop :=
  (∀ (w : Width) (ra : Reg) (s : State),
    ((s.consume 2).reg ra).toNat + w.bytes ≤ s.params.capacity →
    ∃ t v, exec (.incAddrInReg w ra) s = .next t ∧
      v = ((s.loadValue ((s.consume 2).reg ra) w).toNat + 1) % 2 ^ (8 * w.bytes) ∧
      (t.loadValue ((s.consume 2).reg ra) w).toNat = v ∧ t.FlagsOf w v ∧ t.reg .pc = s.reg .pc + 2 ∧
      s.OnlyRegsAndBytes t [.zf, .sf, .rf, .pc] ((s.consume 2).reg ra) w) ∧
  (∀ (w : Width) (addr : Word) (s : State), addr.toNat + w.bytes ≤ s.params.capacity →
    ∃ t v, exec (.incAddrLiteral w addr) s = .next t ∧
      v = ((s.loadValue addr w).toNat + 1) % 2 ^ (8 * w.bytes) ∧
      (t.loadValue addr w).toNat = v ∧ t.FlagsOf w v ∧ t.reg .pc = s.reg .pc + 9 ∧
      s.OnlyRegsAndBytes t [.zf, .sf, .rf, .pc] addr w)

/-- 42_incdec.md section 2, DEC_ADDR_IN_REG and DEC_ADDR_LITERAL. -/
def Obligations.DecMemorySubtractsOneAndSetsNarrowFlags : Prop :=
  (∀ (w : Width) (ra : Reg) (s : State),
    ((s.consume 2).reg ra).toNat + w.bytes ≤ s.params.capacity →
    ∃ t v, exec (.decAddrInReg w ra) s = .next t ∧
      v = ((s.loadValue ((s.consume 2).reg ra) w).toNat + (2 ^ (8 * w.bytes) - 1)) % 2 ^ (8 * w.bytes) ∧
      (t.loadValue ((s.consume 2).reg ra) w).toNat = v ∧ t.FlagsOf w v ∧ t.reg .pc = s.reg .pc + 2 ∧
      s.OnlyRegsAndBytes t [.zf, .sf, .rf, .pc] ((s.consume 2).reg ra) w) ∧
  (∀ (w : Width) (addr : Word) (s : State), addr.toNat + w.bytes ≤ s.params.capacity →
    ∃ t v, exec (.decAddrLiteral w addr) s = .next t ∧
      v = ((s.loadValue addr w).toNat + (2 ^ (8 * w.bytes) - 1)) % 2 ^ (8 * w.bytes) ∧
      (t.loadValue addr w).toNat = v ∧ t.FlagsOf w v ∧ t.reg .pc = s.reg .pc + 9 ∧
      s.OnlyRegsAndBytes t [.zf, .sf, .rf, .pc] addr w)

/-! ## Data movement -/

/-- 43_data_movement.md, MOVE_REG_REG: a source of PROGRAM_COUNTER reads past the operands; a destination of it
jumps. -/
def Obligations.MoveRegRegCopiesSource : Prop :=
  ∀ (rd rs : Reg) (s : State), s.AdmitsDest rd →
    ∃ t, exec (.moveRegReg rd rs) s = .next t ∧
      t.reg rd = (if rs = .pc then s.reg .pc + 2 else s.reg rs) ∧
      (rd ≠ .pc → t.reg .pc = s.reg .pc + 2) ∧ s.OnlyRegs t [rd, .pc]

/-- 43_data_movement.md, MOVE_REG_CONST: the immediate zero-extended. -/
def Obligations.MoveRegConstLoadsImmediate : Prop :=
  ∀ (rd : Reg) (w : Width) (imm : Word) (s : State), (Instr.moveRegConst rd w imm).wf s.params = true →
    ∃ t, exec (.moveRegConst rd w imm) s = .next t ∧ t.reg rd = imm ∧ (t.reg rd).toNat < 2 ^ (8 * w.bytes) ∧
      (rd ≠ .pc → t.reg .pc = s.reg .pc + BitVec.ofNat 64 (2 + w.bytes)) ∧ s.OnlyRegs t [rd, .pc]

/-- 43_data_movement.md, MOVE_REG_ADDR_IN_REG: byte k of the register is byte k of the value in memory, and the
bytes above the width are 0; the address is read before the destination is written. -/
def Obligations.MoveRegAddrInRegLoadsZeroExtended : Prop :=
  ∀ (rd : Reg) (w : Width) (ra : Reg) (s : State), s.AdmitsDest rd →
    ((s.consume 3).reg ra).toNat + w.bytes ≤ s.params.capacity →
    ∃ t, exec (.moveRegAddrInReg rd w ra) s = .next t ∧
      (∀ k < 8, (t.reg rd).extractLsb' (8 * k) 8 =
        if k < w.bytes then
          s.mem.readByte (((s.consume 3).reg ra).toNat + byteOffset s.params.byteOrder w k)
        else 0) ∧
      (rd ≠ .pc → t.reg .pc = s.reg .pc + 3) ∧ s.OnlyRegs t [rd, .pc]

/-- 43_data_movement.md, MOVE_REG_ADDR_LITERAL. -/
def Obligations.MoveRegAddrLiteralLoadsZeroExtended : Prop :=
  ∀ (rd : Reg) (w : Width) (addr : Word) (s : State), s.AdmitsDest rd →
    addr.toNat + w.bytes ≤ s.params.capacity →
    ∃ t, exec (.moveRegAddrLiteral rd w addr) s = .next t ∧
      (∀ k < 8, (t.reg rd).extractLsb' (8 * k) 8 =
        if k < w.bytes then s.mem.readByte (addr.toNat + byteOffset s.params.byteOrder w k) else 0) ∧
      (rd ≠ .pc → t.reg .pc = s.reg .pc + 10) ∧ s.OnlyRegs t [rd, .pc]

/-- 43_data_movement.md, MOVE_ADDR_IN_REG_REG: the low w bytes of the source at the address in ra, and nothing else. -/
def Obligations.MoveAddrInRegRegStoresLowBytes : Prop :=
  ∀ (ra : Reg) (w : Width) (rs : Reg) (s : State),
    ((s.consume 3).reg ra).toNat + w.bytes ≤ s.params.capacity →
    ∃ t, exec (.moveAddrInRegReg ra w rs) s = .next t ∧
      (∀ k < w.bytes, t.mem.readByte (((s.consume 3).reg ra).toNat + byteOffset s.params.byteOrder w k) =
        ((s.consume 3).reg rs).extractLsb' (8 * k) 8) ∧
      t.reg .pc = s.reg .pc + 3 ∧ s.OnlyRegsAndBytes t [.pc] ((s.consume 3).reg ra) w

/-! ## NOP and EXIT -/

/-- 44_control.md R160. -/
def Obligations.NopChangesNothing : Prop :=
  encode .default .nop = [0x0B] ∧ ∀ s : State, exec .nop s = .next s

/-- 44_control.md R161: the handler writes 1 to EXIT, and the end of the step stops the run and clears EXIT. -/
def Obligations.ExitRequestsHalt : Prop :=
  encode .default .exit = [0x11] ∧
  ∀ s : State, ∃ t, exec .exit s = .next t ∧ t.reg .exit = 1 ∧ s.OnlyRegs t [.exit] ∧
    (s.running = true → ∃ u, finishResult (exec .exit s) = .next u ∧ u.running = false ∧ u.reg .exit = 0 ∧
      s.SameRegsExcept u [.exit] ∧ s.SameBytes u ∧ u.fault = s.fault)

/-! ## Where an instruction raises -/

/-- The model's choice of log 13 (DEDUCED): the meaning of every form with a destination register raises
ProgramCounterWrite itself on PROGRAM_COUNTER under the policy `fault`, past the destination byte. No step reaches this
arm: in a run the Decoder rejects first, and the fault the run takes is that of `Obligations.DecodeDestRegAppliesPolicy`,
`Obligations.RejectedDecodeRaises` and `Obligations.RejectedOperandByteRaises` (40_execution_loop.md section 1). -/
def Obligations.DestinationPcRaises : Prop :=
  ∀ (i : Instr) (s : State), i.dest = some .pc → s.params.pcWritePolicy = .fault →
    ∃ t, exec i s = .next t ∧
      s.Raised t (.programCounterWrite (s.params.regIds.byteOf .pc)) s.ipc (s.reg .pc + 1) ∧ t.trace = s.trace

/-- 60_exceptions.md section 2: the data access of each of the seven memory forms raises MemoryFault past the
operand bytes, with the effective address and the width. -/
def Obligations.DataAccessOutOfBoundsRaises : Prop :=
  ∀ (w : Width) (s : State),
    (∀ ra : Reg, s.params.capacity < ((s.consume 2).reg ra).toNat + w.bytes →
      ∀ i : Instr, i = .incAddrInReg w ra ∨ i = .decAddrInReg w ra →
        ∃ t, exec i s = .next t ∧ t.trace = s.trace ∧
          s.Raised t (.memoryFault ((s.consume 2).reg ra) w.bytes) s.ipc (s.reg .pc + 2)) ∧
    (∀ addr : Word, s.params.capacity < addr.toNat + w.bytes →
      ∀ i : Instr, i = .incAddrLiteral w addr ∨ i = .decAddrLiteral w addr →
        ∃ t, exec i s = .next t ∧ t.trace = s.trace ∧
          s.Raised t (.memoryFault addr w.bytes) s.ipc (s.reg .pc + 9)) ∧
    (∀ rd ra : Reg, s.AdmitsDest rd → s.params.capacity < ((s.consume 3).reg ra).toNat + w.bytes →
      ∃ t, exec (.moveRegAddrInReg rd w ra) s = .next t ∧ t.trace = s.trace ∧
        s.Raised t (.memoryFault ((s.consume 3).reg ra) w.bytes) s.ipc (s.reg .pc + 3)) ∧
    (∀ (rd : Reg) (addr : Word), s.AdmitsDest rd → s.params.capacity < addr.toNat + w.bytes →
      ∃ t, exec (.moveRegAddrLiteral rd w addr) s = .next t ∧ t.trace = s.trace ∧
        s.Raised t (.memoryFault addr w.bytes) s.ipc (s.reg .pc + 10)) ∧
    (∀ ra rs : Reg, s.params.capacity < ((s.consume 3).reg ra).toNat + w.bytes →
      ∃ t, exec (.moveAddrInRegReg ra w rs) s = .next t ∧ t.trace = s.trace ∧
        s.Raised t (.memoryFault ((s.consume 3).reg ra) w.bytes) s.ipc (s.reg .pc + 3))

/-! ## The step -/

/-- 40_execution_loop.md section 3: a step runs the instruction the Decoder delivers, from the state that has the
instruction address recorded, PROGRAM_COUNTER past the opcode byte and the trace event emitted, and then does the halt
check and the volatile reset. -/
def Obligations.StepRunsDecodedInstruction : Prop :=
  ∀ (s : State) (i : Instr) (c : Cursor), s.Ready → decode s.params s.fetchWindow = .ok (i, c) →
    step s = finishResult (exec i s.afterOpcode) ∧
    s.afterOpcode.ipc = s.reg .pc ∧ s.afterOpcode.reg .pc = s.reg .pc + 1 ∧
    s.SameRegsExcept s.afterOpcode [.pc] ∧ s.afterOpcode.mem = s.mem ∧ s.afterOpcode.params = s.params ∧
    s.afterOpcode.running = true ∧ s.afterOpcode.fault = s.fault ∧
    s.afterOpcode.verbose = s.verbose ∧ s.afterOpcode.request = s.request ∧
    s.afterOpcode.trace = s.trace ++
      (if s.verbose then [{ ipc := s.reg .pc, op := s.mem.readByte (s.reg .pc).toNat }] else [])

/-- 40_execution_loop.md section 3 with 30_encoding.md section 3: where the bytes of a well-formed instruction lie at
PROGRAM_COUNTER, the step runs that instruction. -/
def Obligations.StepRunsEncodedInstruction : Prop :=
  ∀ (s : State) (i : Instr), s.Ready → i.wf s.params = true →
    (s.reg .pc).toNat + i.length ≤ s.params.capacity →
    s.mem.readBytes (s.reg .pc).toNat i.length = encode s.params i →
    step s = finishResult (exec i s.afterOpcode)

/-- 40_execution_loop.md R90: when the handler of an instruction returns without a fault, the run stops exactly if EXIT
is not 0, and EXIT is 0 in every case; nothing else changes. -/
def Obligations.HaltCheckThenVolatileReset : Prop :=
  ∀ (s u : State) (i : Instr) (c : Cursor), s.Ready → decode s.params s.fetchWindow = .ok (i, c) →
    exec i s.afterOpcode = .next u → u.running = true →
    ∃ t, step s = .next t ∧ (t.running = true ↔ u.reg .exit = 0) ∧ t.reg .exit = 0 ∧
      u.SameRegsExcept t [.exit] ∧ t.mem = u.mem ∧ t.fault = u.fault ∧ t.params = u.params ∧
      t.verbose = u.verbose ∧ t.ipc = u.ipc ∧ t.request = u.request ∧ t.trace = u.trace

/-- 40_execution_loop.md sections 1 and 5, 60_exceptions.md sections 2 and 3: a decode that stops raises the fault of
its reason, with PROGRAM_COUNTER past the bytes consumed, and nothing else changes. -/
def Obligations.RejectedDecodeRaises : Prop :=
  ∀ (s : State) (r : Reject) (pc : Word), s.Ready → decode s.params s.fetchWindow = .error r →
    pc = s.reg .pc + BitVec.ofNat 64 r.consumed →
    ∃ t k, step s = .next t ∧ s.Raised t k (s.reg .pc) pc ∧
      (∀ n, r.error = .endOfMemory n → k = .memoryFault pc n) ∧
      (∀ b, r.error = .invalidOperandSize b → k = .invalidOperandSize b) ∧
      (∀ b, r.error = .unknownOpcode b → k = .unknownOpcode b) ∧
      (∀ b, r.error = .invalidRegister b → k = .invalidRegister b) ∧
      (∀ b, r.error = .programCounterWrite b → k = .programCounterWrite b)

/-- 60_exceptions.md R172, R175 (under the default identifiers) and R177, from the bytes in memory: the bytes before an
operand are those of a well-formed instruction and the operand's own byte is bad. The fault is raised as soon as that byte
is consumed, whatever bytes follow it. -/
def Obligations.RejectedOperandByteRaises : Prop :=
  ∀ (s : State) (i : Instr) (k : Nat) (f : OperandField) (b : Byte), s.Ready → i.wf s.params = true →
    (k, f) ∈ i.operandFields → (s.reg .pc).toNat + k < s.params.capacity →
    s.mem.readBytes (s.reg .pc).toNat k = (encode s.params i).take k →
    s.mem.readByte ((s.reg .pc).toNat + k) = b →
    (f = .width → b.toNat ∉ [1, 2, 4, 8] →
      ∃ t, step s = .next t ∧
        s.Raised t (.invalidOperandSize b) (s.reg .pc) (s.reg .pc + BitVec.ofNat 64 (k + 1))) ∧
    (f = .reg ∨ f = .dest → s.params.regIds = .default → 8 ≤ b.toNat →
      ∃ t, step s = .next t ∧
        s.Raised t (.invalidRegister b) (s.reg .pc) (s.reg .pc + BitVec.ofNat 64 (k + 1))) ∧
    (f = .dest → s.params.pcWritePolicy = .fault → b = s.params.regIds.byteOf .pc →
      ∃ t, step s = .next t ∧
        s.Raised t (.programCounterWrite b) (s.reg .pc) (s.reg .pc + BitVec.ofNat 64 (k + 1)))

/-- 40_execution_loop.md section 1, 60_exceptions.md section 2: the fetch of an operand that passes the end of memory
raises MemoryFault with the address and the size of that fetch, and consumes no byte of the operand. -/
def Obligations.OperandFetchPastEndRaises : Prop :=
  ∀ (s : State) (i : Instr) (k : Nat) (f : OperandField), s.Ready → i.wf s.params = true →
    (k, f) ∈ i.operandFields → (s.reg .pc).toNat + k ≤ s.params.capacity →
    s.params.capacity < (s.reg .pc).toNat + k + f.bytes →
    s.mem.readBytes (s.reg .pc).toNat k = (encode s.params i).take k →
    ∃ t, step s = .next t ∧
      s.Raised t (.memoryFault (s.reg .pc + BitVec.ofNat 64 k) f.bytes) (s.reg .pc) (s.reg .pc + BitVec.ofNat 64 k)

/-- 40_execution_loop.md R88 and 60_exceptions.md R173, under the default opcode map: every byte from 0x12 on is
unmapped, and the fault leaves every register and every byte as before the fetch. -/
def Obligations.UnknownOpcodeLeavesStateUntouched : Prop :=
  ∀ s : State, s.Ready → s.params.opcodes = .default → (s.reg .pc).toNat < s.params.capacity →
    0x12 ≤ (s.mem.readByte (s.reg .pc).toNat).toNat →
    ∃ t, step s = .next t ∧
      s.Raised t (.unknownOpcode (s.mem.readByte (s.reg .pc).toNat)) (s.reg .pc) (s.reg .pc) ∧
      (∀ r, t.reg r = s.reg r) ∧ t.mem = s.mem

/-- 40_execution_loop.md sections 1 and 5: a fetch at or past the end of memory raises MemoryFault(PC, 1), leaves
PROGRAM_COUNTER, and emits no trace event. -/
def Obligations.OpcodeFetchPastEndRaises : Prop :=
  ∀ s : State, s.Ready → s.params.capacity ≤ (s.reg .pc).toNat →
    ∃ t, step s = .next t ∧ s.Raised t (.memoryFault (s.reg .pc) 1) (s.reg .pc) (s.reg .pc) ∧ t.trace = s.trace

/-- 40_execution_loop.md section 3, trace: one event (ipc, opcode byte) per opcode fetched while verbose, none
otherwise; the list of events is the model's own field (log 11). -/
def Obligations.StepEmitsOneTraceEvent : Prop :=
  ∀ s t : State, s.request = none → step s = .next t →
    t.trace = s.trace ++
      (if s.running = true ∧ s.verbose = true ∧ (s.reg .pc).toNat < s.params.capacity then
        [{ ipc := s.reg .pc, op := s.mem.readByte (s.reg .pc).toNat }]
      else [])

/-- 40_execution_loop.md section 5: an instruction that completes leaves PROGRAM_COUNTER past its last byte, unless it
has PROGRAM_COUNTER as its destination. -/
def Obligations.CompletedInstructionAdvancesByLength : Prop :=
  ∀ (s t : State) (i : Instr) (c : Cursor), s.Ready → s.fault = none → decode s.params s.fetchWindow = .ok (i, c) →
    i.dest ≠ some .pc → step s = .next t → t.fault = none →
    (t.reg .pc).toNat = (s.reg .pc).toNat + i.length

/-- 40_execution_loop.md section 5: under the policy `fault` PROGRAM_COUNTER strictly increases with every instruction
that completes. -/
def Obligations.ProgramCounterOnlyMovesForward : Prop :=
  ∀ s t : State, s.Ready → s.fault = none → s.params.pcWritePolicy = .fault → step s = .next t → t.fault = none →
    (s.reg .pc).toNat < (t.reg .pc).toNat ∧ (t.reg .pc).toNat ≤ s.params.capacity

/-- 60_exceptions.md section 3: a step that faults changes no register but PROGRAM_COUNTER and no byte of memory, ends
the run, and records the instruction address and PROGRAM_COUNTER. -/
def Obligations.FaultingStepChangesOnlyPc : Prop :=
  ∀ s t : State, s.Ready → s.fault = none → step s = .next t → t.fault ≠ none →
    ∃ k, s.Raised t k (s.reg .pc) (t.reg .pc)

/-- 60_exceptions.md section 4: the only ways a run stops are a fault and a halt request, a nonzero EXIT after the
handler. -/
def Obligations.RunStopsOnlyByHaltOrFault : Prop :=
  ∀ s t : State, s.Ready → s.fault = none → step s = .next t → t.running = false →
    t.fault ≠ none ∨
      ∃ i c u, decode s.params s.fetchWindow = .ok (i, c) ∧ exec i s.afterOpcode = .next u ∧ u.reg .exit ≠ 0

/-- 00_scope.md section 4 and 20_memory.md section 1: no step changes a parameter; memory is never resized. -/
def Obligations.StepKeepsParameters : Prop :=
  ∀ s t : State, step s = .next t → t.params = s.params

/-- 10_state.md section 5 and 40_execution_loop.md section 3: the verbosity flag and the events already emitted
decide nothing but the trace. -/
def Obligations.VerbosityChangesOnlyTrace : Prop :=
  ∀ (s t : State) (v : Bool) (tr : List TraceEvent), s.request = none → step s = .next t →
    ∃ tr', step { s with verbose := v, trace := tr } = .next { t with verbose := v, trace := tr' }

/-- Every step ends in a next state but for the two stops of the model: parameters of no machine (log 8) and a request
during a run (70_reset_and_hazards.md section 2). No instruction ends in a stop. -/
def Obligations.StepAnswersNextState : Prop :=
  (∀ s : State, s.params.wf = true → ¬(s.running = true ∧ s.request ≠ none) → ∃ t, step s = .next t) ∧
  ∀ (i : Instr) (s : State), ∃ t, exec i s = .next t

/-- 20_memory.md section 5, instruction-fetch coherence: the bytes a store left at PROGRAM_COUNTER are the bytes the
next fetch sees. -/
def Obligations.FetchSeesStoredBytes : Prop :=
  ∀ (s t : State) (addr : Word) (w : Width) (v : Word), s.memWrite addr w v = .ok t → t.reg .pc = addr →
    ∀ k < w.bytes, t.fetchWindow[byteOffset s.params.byteOrder w k]? = some (v.extractLsb' (8 * k) 8)

/-! ## Execution requests -/

/-- 70_reset_and_hazards.md section 2: after a successful load the code lies at the old stack pointer, PROGRAM_COUNTER
is there, SP is past it, a run is in progress, and A, B, the flags, EXIT and every other byte are as they were. -/
def Obligations.LoadPlacesCodeAndStarts : Prop :=
  ∀ (s : State) (r : Request), s.params.wf = true → s.running = false → s.request = some r →
    (s.reg .sp).toNat + r.code.length ≤ s.params.capacity →
    ∃ t, step s = .next t ∧ t.running = true ∧ t.fault = none ∧ t.verbose = r.verbose ∧ t.request = none ∧
      t.reg .pc = s.reg .sp ∧ (t.reg .sp).toNat = (s.reg .sp).toNat + r.code.length ∧
      t.mem.readBytes (s.reg .sp).toNat r.code.length = r.code ∧ s.SameRegsExcept t [.pc, .sp] ∧
      s.SameBytesOutside t (s.reg .sp).toNat r.code.length ∧ t.params = s.params ∧ t.trace = s.trace

/-- 70_reset_and_hazards.md section 2: the load fault. Two clauses are the model's choice: that one step of an idle
block takes the request from the port (log 9), and that a request of no code with SP above CAPACITY is a load fault too
(log 15, by the pseudocode of 20_memory.md section 4). -/
def Obligations.LoadThatDoesNotFitFaults : Prop :=
  ∀ (s : State) (r : Request), s.params.wf = true → s.running = false → s.request = some r →
    s.params.capacity < (s.reg .sp).toNat + r.code.length →
    ∃ t, step s = .next t ∧ t.running = false ∧
      t.fault = some { kind := .memoryFault (s.reg .sp) r.code.length, ipc := s.reg .pc, pc := s.reg .pc } ∧
      (∀ q, t.reg q = s.reg q) ∧ t.mem = s.mem

/-- 70_reset_and_hazards.md section 2: a request is refused while `running` is true. That an idle block's step takes the
request from the port is the model's choice (log 9). -/
def Obligations.RequestDuringRunIsRefused : Prop :=
  ∀ (s : State) (r : Request), s.params.wf = true → s.request = some r →
    (s.running = true → step s = .refused .requestWhileRunning) ∧
    (s.running = false → ∃ t, step s = .next t ∧ t.request = none)

/-- 60_exceptions.md section 5: an idle block keeps its state (that its step is a next state is the model's choice,
log 9). -/
def Obligations.IdleBlockKeepsState : Prop :=
  ∀ s : State, s.params.wf = true → s.running = false → s.request = none → step s = .next s

/-! ## Encoding -/

/-- 40_execution_loop.md section 1, DecodeReg, under the default identifiers: ids 0 to 7 in the order of the register
table, InvalidRegister past the byte for 8 to 255, and a fetch fault where no byte is left. -/
def Obligations.DecodeRegChecksIdentifier : Prop :=
  ∀ (p : Params) (pos : Nat) (rest : List Byte), p.regIds = .default →
    decodeReg p { pos := pos, rest := [] } = .error { error := .endOfMemory 1, consumed := pos } ∧
    ∀ b : Byte,
      (∀ h : b.toNat < Reg.all.length,
        decodeReg p { pos := pos, rest := b :: rest } = .ok (Reg.all[b.toNat], { pos := pos + 1, rest := rest })) ∧
      (8 ≤ b.toNat → decodeReg p { pos := pos, rest := b :: rest } =
        .error { error := .invalidRegister b, consumed := pos + 1 })

/-- 40_execution_loop.md section 1, DecodeDestReg: as DecodeReg, and PROGRAM_COUNTER is rejected past its byte exactly
under the policy `fault`. -/
def Obligations.DecodeDestRegAppliesPolicy : Prop :=
  ∀ (p : Params) (c : Cursor),
    (∀ e, decodeReg p c = .error e → decodeDestReg p c = .error e) ∧
    (∀ r c', decodeReg p c = .ok (r, c') → (r = .pc → p.pcWritePolicy = .jump) → decodeDestReg p c = .ok (r, c')) ∧
    (∀ c', decodeReg p c = .ok (.pc, c') → p.pcWritePolicy = .fault →
      decodeDestReg p c = .error { error := .programCounterWrite (p.regIds.byteOf .pc), consumed := c'.pos })

/-- 40_execution_loop.md section 1, DecodeWidth: the byte is the width itself; any other byte is rejected past it. -/
def Obligations.DecodeWidthChecksSize : Prop :=
  ∀ (pos : Nat) (rest : List Byte),
    decodeWidth { pos := pos, rest := [] } = .error { error := .endOfMemory 1, consumed := pos } ∧
    (∀ w : Width, decodeWidth { pos := pos, rest := BitVec.ofNat 8 w.bytes :: rest } =
      .ok (w, { pos := pos + 1, rest := rest })) ∧
    (∀ b : Byte, b.toNat ∉ [1, 2, 4, 8] → decodeWidth { pos := pos, rest := b :: rest } =
      .error { error := .invalidOperandSize b, consumed := pos + 1 })

/-- 30_encoding.md section 7: the words of the spec's table of encodings, decoded and encoded. -/
def Obligations.EncodingExamplesDecode : Prop :=
  ∀ x ∈ ([(.moveRegConst .a .w1 5, [0x0D, 0x00, 0x01, 0x05]),
      (.moveRegConst .b .w1 3, [0x0D, 0x01, 0x01, 0x03]),
      (.moveRegConst .a .w2 0x0100, [0x0D, 0x00, 0x02, 0x00, 0x01]),
      (.moveRegConst .b .w8 0x1122334455667788,
        [0x0D, 0x01, 0x08, 0x88, 0x77, 0x66, 0x55, 0x44, 0x33, 0x22, 0x11]),
      (.moveRegReg .a .rf, [0x0C, 0x00, 0x06]),
      (.moveRegAddrInReg .b .w4 .a, [0x0E, 0x01, 0x04, 0x00]),
      (.moveRegAddrLiteral .a .w2 0x100,
        [0x0F, 0x00, 0x02, 0x00, 0x01, 0x00, 0x00, 0x00, 0x00, 0x00, 0x00]),
      (.moveAddrInRegReg .a .w2 .b, [0x10, 0x00, 0x02, 0x01]),
      (.incReg .a, [0x05, 0x00]),
      (.decAddrInReg .w1 .b, [0x09, 0x01, 0x01]),
      (.incAddrLiteral .w8 0x20, [0x07, 0x08, 0x20, 0x00, 0x00, 0x00, 0x00, 0x00, 0x00, 0x00]),
      (.add, [0x00]), (.div, [0x03]), (.nop, [0x0B]), (.exit, [0x11])] : List (Instr × List Byte)),
    decode .default x.2 = .ok (x.1, { pos := x.2.length, rest := [] }) ∧ encode .default x.1 = x.2

/-- 30_encoding.md sections 1 to 4: under every injective opcode and register map, either byte order and either policy,
the Decoder reads back every well-formed instruction from its bytes, consumes exactly its length and leaves the rest. -/
def Obligations.DecodeOfEncodeIsIdentity : Prop :=
  ∀ (p : Params) (i : Instr) (rest : List Byte), p.wf = true → i.wf p = true →
    decode p (encode p i ++ rest) = .ok (i, { pos := i.length, rest := rest })

/-- 30_encoding.md sections 1 to 5: whatever the Decoder delivers is a well-formed instruction, and the bytes it
consumed are that instruction's encoding, so no two byte sequences stand for one instruction. -/
def Obligations.EncodeOfDecodeIsIdentity : Prop :=
  ∀ (p : Params) (bs : List Byte) (i : Instr) (c : Cursor), decode p bs = .ok (i, c) →
    i.wf p = true ∧ bs = encode p i ++ c.rest ∧ c.pos = i.length

/-! ## Over every step and every run -/

/-- Every step keeps the invariant of the machine, from every state that meets it: the canonical memory below
CAPACITY, EXIT 0 between instructions, no fault on record during a run, and without jumps PROGRAM_COUNTER within
memory (10_state.md sections 4 and 5, 40_execution_loop.md section 5). -/
def Obligations.StepKeepsMachineInvariant : Prop :=
  ∀ s t : State, s.Inv → step s = .next t → t.Inv

/-- 40_execution_loop.md section 5: under the policy `fault` every run ends, halted or faulted: CAPACITY + 1 steps
reach its end, since at most CAPACITY instructions complete. A run that ends earlier idles for the steps that remain,
which is the model's choice (log 9). -/
def Obligations.EveryRunEndsWithoutJumps : Prop :=
  ∀ s : State, s.params.wf = true → s.params.pcWritePolicy = .fault → s.request = none →
    s.EndsWithin (s.params.capacity + 1)
end

