-- ==== Sys2Proof/Laws/Bytes.lean ====
section
/-! SUPPORT. Numbers and their bytes: each conversion undoes the other (00_scope.md R11, 20_memory.md R45). -/

namespace Sys2Proof

@[simp] theorem length_leBytes (n v : Nat) : (leBytes n v).length = n := by
  induction n generalizing v with
  | zero => rfl
  | succ n ih => simp [leBytes, ih]

theorem leValue_lt (bs : List Byte) : leValue bs < 2 ^ (8 * bs.length) := by
  induction bs with
  | nil => simp [leValue]
  | cons b bs ih =>
    have hb := b.isLt
    simp only [leValue, List.length_cons]
    rw [show 8 * (bs.length + 1) = 8 + 8 * bs.length by ring, Nat.pow_add]
    omega

theorem leValue_leBytes (n v : Nat) : leValue (leBytes n v) = v % 2 ^ (8 * n) := by
  induction n generalizing v with
  | zero => simp [leBytes, leValue, Nat.mod_one]
  | succ n ih =>
    have h : v % 2 ^ (8 * (n + 1)) = v % 256 + 256 * (v / 256 % 2 ^ (8 * n)) := by
      rw [show 8 * (n + 1) = 8 + 8 * n by ring, Nat.pow_add]
      exact Nat.mod_mul
    simp [leBytes, leValue, ih, h]

theorem leBytes_leValue (bs : List Byte) : leBytes bs.length (leValue bs) = bs := by
  induction bs with
  | nil => rfl
  | cons b bs ih =>
    have hb := b.isLt
    have h1 : (b.toNat + 256 * leValue bs) / 256 = leValue bs := by omega
    have h2 : BitVec.ofNat 8 (b.toNat + 256 * leValue bs) = b := by
      apply BitVec.eq_of_toNat_eq
      simpa using hb
    simp only [List.length_cons, leBytes, leValue, h1, h2, ih]

theorem getElem_leBytes (n v k : Nat) (h : k < (leBytes n v).length) :
    (leBytes n v)[k] = BitVec.ofNat 8 (v / 2 ^ (8 * k)) := by
  induction n generalizing v k with
  | zero => simp [leBytes] at h
  | succ n ih =>
    cases k with
    | zero => simp [leBytes]
    | succ k =>
      have h' : k < (leBytes n (v / 256)).length := by simpa using h
      have := ih (v / 256) k h'
      simp only [leBytes, List.getElem_cons_succ, this]
      rw [Nat.div_div_eq_div_mul, show 8 * (k + 1) = 8 + 8 * k by ring, Nat.pow_add]

/-! ## Either byte order -/

@[simp] theorem ByteOrder.length_toBytes (o : ByteOrder) (n v : Nat) : (o.toBytes n v).length = n := by
  cases o <;> simp [ByteOrder.toBytes]

theorem ByteOrder.value_lt (o : ByteOrder) (bs : List Byte) : o.value bs < 2 ^ (8 * bs.length) := by
  cases o
  · exact leValue_lt bs
  · simpa [ByteOrder.value] using leValue_lt bs.reverse

theorem ByteOrder.value_toBytes (o : ByteOrder) (n v : Nat) : o.value (o.toBytes n v) = v % 2 ^ (8 * n) := by
  cases o <;> simp [ByteOrder.value, ByteOrder.toBytes, leValue_leBytes]

theorem ByteOrder.toBytes_value (o : ByteOrder) (bs : List Byte) : o.toBytes bs.length (o.value bs) = bs := by
  cases o
  · exact leBytes_leValue bs
  · have := leBytes_leValue bs.reverse
    rw [List.length_reverse] at this
    simp [ByteOrder.value, ByteOrder.toBytes, this]

theorem Width.bytes_le (w : Width) : w.bytes ≤ 8 := by cases w <;> decide

theorem Width.bytes_pos (w : Width) : 0 < w.bytes := by cases w <;> decide

/-- The value of at most 8 bytes survives as a 64-bit word. -/
theorem ByteOrder.toNat_word (o : ByteOrder) (bs : List Byte) (h : bs.length ≤ 8) :
    (o.word bs).toNat = o.value bs := by
  have hv := o.value_lt bs
  have : 2 ^ (8 * bs.length) ≤ 2 ^ 64 := Nat.pow_le_pow_right (by decide) (by omega)
  rw [ByteOrder.word, BitVec.toNat_ofNat, Nat.mod_eq_of_lt (by omega)]

/-- A word that fits `n` bytes is the value of its `n` bytes. -/
theorem ByteOrder.word_toBytes (o : ByteOrder) (n : Nat) (v : Word) (h : v.toNat < 2 ^ (8 * n)) :
    o.word (o.toBytes n v.toNat) = v := by
  rw [ByteOrder.word, o.value_toBytes, Nat.mod_eq_of_lt h, BitVec.ofNat_toNat, BitVec.setWidth_eq]

/-- At most 8 bytes are those of the word they stand for. -/
theorem ByteOrder.toBytes_word (o : ByteOrder) (bs : List Byte) (h : bs.length ≤ 8) :
    o.toBytes bs.length (o.word bs).toNat = bs := by
  rw [o.toNat_word bs h, o.toBytes_value]

end Sys2Proof
end

