-- ==== Sys2Proof/Laws/Decode.lean ====
section
/-! SUPPORT. One spec lemma per Decoder primitive, and that the byte maps and their inverses agree. -/

namespace Sys2Proof

/-! ## Parameters -/

theorem Params.capacity_lt_of_wf (p : Params) (h : p.wf = true) : p.capacity < 2 ^ 64 := by
  simp only [Params.wf, Bool.and_eq_true, decide_eq_true_eq] at h
  exact h.1.1

theorem Params.opcodes_nodup_of_wf (p : Params) (h : p.wf = true) : p.opcodes.bytes.Nodup := by
  simp only [Params.wf, Bool.and_eq_true, decide_eq_true_eq] at h
  exact h.1.2

theorem Params.regIds_nodup_of_wf (p : Params) (h : p.wf = true) : p.regIds.bytes.Nodup := by
  simp only [Params.wf, Bool.and_eq_true, decide_eq_true_eq] at h
  exact h.2

theorem Params.wf_ofCapacity (n : Nat) (h : n < 2 ^ 64) : (Params.ofCapacity n).wf = true := by
  have h1 : OpcodeMap.default.bytes.Nodup := by decide
  have h2 : RegIdMap.default.bytes.Nodup := by decide
  simp only [Params.wf, Bool.and_eq_true, decide_eq_true_eq]
  exact ⟨⟨h, h1⟩, h2⟩

/-! ## The byte maps -/

/-- Searching a list for the byte of one of its members finds that member, if the map has no repeats. -/
theorem find?_of_map_nodup {α : Type} (f : α → Byte) (l : List α) (h : (l.map f).Nodup) (a : α) (ha : a ∈ l) :
    (l.find? fun x => f x == f a) = some a := by
  induction l with
  | nil => simp at ha
  | cons x xs ih =>
    have hx : f x ∉ xs.map f ∧ (xs.map f).Nodup := by simpa using h
    rcases List.mem_cons.1 ha with rfl | ha
    · simp
    · have hne : f x ≠ f a := fun he => hx.1 (he ▸ List.mem_map_of_mem ha)
      simpa [List.find?_cons, hne] using ih hx.2 ha

theorem RegIdMap.regOf_byteOf (m : RegIdMap) (h : m.bytes.Nodup) (r : Reg) : m.regOf (m.byteOf r) = some r :=
  find?_of_map_nodup m.byteOf Reg.all h r (by cases r <;> decide)

theorem RegIdMap.byteOf_of_regOf (m : RegIdMap) (b : Byte) (r : Reg) (h : m.regOf b = some r) :
    m.byteOf r = b := by
  simpa using List.find?_some h

theorem OpcodeMap.dispatch_byteOf (m : OpcodeMap) (h : m.bytes.Nodup) (op : Opcode) :
    m.dispatch (m.byteOf op) = some op :=
  find?_of_map_nodup m.byteOf Opcode.all h op (by cases op <;> decide)

theorem OpcodeMap.byteOf_of_dispatch (m : OpcodeMap) (b : Byte) (op : Opcode) (h : m.dispatch b = some op) :
    m.byteOf op = b := by
  simpa using List.find?_some h

theorem Width.ofByte_toByte (w : Width) : Width.ofByte w.toByte = some w := by cases w <;> decide

theorem Width.toByte_of_ofByte (b : Byte) (w : Width) (h : Width.ofByte b = some w) : w.toByte = b := by
  unfold Width.ofByte at h
  split_ifs at h <;> (cases h; subst_vars; decide)

/-! ## Decoder primitives that succeed -/

theorem fetchByte_eq_ok (c c' : Cursor) (b : Byte) :
    fetchByte c = .ok (b, c') ↔ c.rest = b :: c'.rest ∧ c'.pos = c.pos + 1 := by
  obtain ⟨pos, rest⟩ := c
  obtain ⟨pos', rest'⟩ := c'
  cases rest with
  | nil => simp [fetchByte]
  | cons x xs => simp [fetchByte]; tauto

theorem fetchBytes_eq_ok (o : ByteOrder) (n : Nat) (c c' : Cursor) (v : Word) :
    fetchBytes o n c = .ok (v, c') ↔
      ∃ bs, bs.length = n ∧ c.rest = bs ++ c'.rest ∧ c'.pos = c.pos + n ∧ v = o.word bs := by
  obtain ⟨pos, rest⟩ := c
  obtain ⟨pos', rest'⟩ := c'
  unfold fetchBytes
  dsimp only
  constructor
  · intro h
    split at h
    · cases h
    · next hlen =>
      simp only [Except.ok.injEq, Prod.mk.injEq, Cursor.mk.injEq] at h
      obtain ⟨rfl, rfl, rfl⟩ := h
      exact ⟨rest.take n, by simp; omega, by simp, rfl, rfl⟩
  · rintro ⟨bs, rfl, hrest, hpos, rfl⟩
    subst hrest hpos
    simp

theorem decodeReg_eq_ok (p : Params) (c c' : Cursor) (r : Reg) :
    decodeReg p c = .ok (r, c') ↔
      ∃ b, c.rest = b :: c'.rest ∧ c'.pos = c.pos + 1 ∧ p.regIds.regOf b = some r := by
  unfold decodeReg
  cases hf : fetchByte c with
  | error e =>
    simp only [bind, Except.bind, reduceCtorEq, false_iff]
    rintro ⟨b, h1, h2, -⟩
    rw [(fetchByte_eq_ok c c' b).2 ⟨h1, h2⟩] at hf
    cases hf
  | ok bc =>
    obtain ⟨b, c1⟩ := bc
    have h1 := (fetchByte_eq_ok c c1 b).1 hf
    simp only [bind, Except.bind]
    cases hr : p.regIds.regOf b with
    | none =>
      simp only [reduceCtorEq, false_iff]
      rintro ⟨b', h2, -, h3⟩
      rw [h1.1] at h2
      obtain ⟨rfl, -⟩ := List.cons.inj h2
      rw [hr] at h3
      cases h3
    | some r' =>
      simp only [Except.ok.injEq, Prod.mk.injEq]
      constructor
      · rintro ⟨rfl, rfl⟩
        exact ⟨b, h1.1, h1.2, hr⟩
      · rintro ⟨b', h2, h3, h4⟩
        rw [h1.1] at h2
        obtain ⟨rfl, hrest⟩ := List.cons.inj h2
        rw [hr] at h4
        cases h4
        refine ⟨rfl, ?_⟩
        obtain ⟨p1, r1⟩ := c1
        obtain ⟨p2, r2⟩ := c'
        simp_all

theorem decodeDestReg_eq_ok (p : Params) (c c' : Cursor) (r : Reg) :
    decodeDestReg p c = .ok (r, c') ↔
      decodeReg p c = .ok (r, c') ∧ ¬(r = .pc ∧ p.pcWritePolicy = .fault) := by
  unfold decodeDestReg
  cases hd : decodeReg p c with
  | error e => simp [bind, Except.bind]
  | ok rc =>
    obtain ⟨r1, c1⟩ := rc
    simp only [bind, Except.bind]
    split
    · next h =>
      simp only [reduceCtorEq, Except.ok.injEq, Prod.mk.injEq, false_iff]
      rintro ⟨⟨rfl, -⟩, h2⟩
      exact h2 h
    · next h =>
      simp only [Except.ok.injEq, Prod.mk.injEq]
      constructor
      · rintro ⟨rfl, rfl⟩
        exact ⟨⟨rfl, rfl⟩, h⟩
      · exact fun h => h.1

theorem decodeWidth_eq_ok (c c' : Cursor) (w : Width) :
    decodeWidth c = .ok (w, c') ↔ c.rest = w.toByte :: c'.rest ∧ c'.pos = c.pos + 1 := by
  unfold decodeWidth
  cases hf : fetchByte c with
  | error e =>
    simp only [bind, Except.bind, reduceCtorEq, false_iff]
    intro h
    rw [(fetchByte_eq_ok c c' w.toByte).2 h] at hf
    cases hf
  | ok bc =>
    obtain ⟨b, c1⟩ := bc
    have h1 := (fetchByte_eq_ok c c1 b).1 hf
    obtain ⟨p1, r1⟩ := c1
    obtain ⟨p2, r2⟩ := c'
    simp only [bind, Except.bind, h1.1, List.cons.injEq] at h1 ⊢
    cases hw : Width.ofByte b with
    | none =>
      simp only [reduceCtorEq, false_iff]
      rintro ⟨⟨rfl, -⟩, -⟩
      rw [Width.ofByte_toByte] at hw
      cases hw
    | some w' =>
      have hb := Width.toByte_of_ofByte b w' hw
      simp only [Except.ok.injEq, Prod.mk.injEq, Cursor.mk.injEq]
      constructor
      · rintro ⟨rfl, rfl, rfl⟩
        exact ⟨⟨hb.symm, rfl⟩, h1.2⟩
      · rintro ⟨⟨rfl, rfl⟩, h2⟩
        rw [Width.ofByte_toByte] at hw
        cases hw
        exact ⟨rfl, by omega, rfl⟩

/-- A well-formed instruction has an immediate that fits and a destination the policy admits. -/
theorem Instr.wf_iff (p : Params) (i : Instr) :
    i.wf p = true ↔ i.immFits = true ∧ ¬(i.dest = some .pc ∧ p.pcWritePolicy = .fault) := by
  simp only [Instr.wf, Instr.destAdmitted, Bool.and_eq_true, Bool.not_eq_true', Bool.and_eq_false_iff,
    decide_eq_false_iff_not, not_and_or]

end Sys2Proof
end

