-- ==== Sys2Proof/Laws/State.lean ====
section
/-! SUPPORT. One lemma per field of `State` per update, and what each update leaves in a register, so that no
proof unfolds a record update. -/

namespace Sys2Proof.Machine

/-! ## Registers -/

@[simp] theorem RegFile.get_set (f : RegFile) (r q : Reg) (v : Word) :
    (f.set r v).get q = if q = r then v else f.get q := by
  cases r <;> cases q <;> rfl

@[simp] theorem State.reg_setReg (s : State) (r q : Reg) (v : Word) :
    (s.setReg r v).reg q = if q = r then v else s.reg q :=
  RegFile.get_set s.regs r q v

@[simp] theorem State.reg_consume (s : State) (n : Nat) (q : Reg) :
    (s.consume n).reg q = if q = .pc then s.reg .pc + BitVec.ofNat 64 n else s.reg q :=
  s.reg_setReg .pc q _

theorem State.reg_setFlags (s : State) (w : Width) (v : Word) (q : Reg) :
    (s.setFlags w v).reg q =
      if q = .rf then 0 else if q = .sf then signFlag w v else if q = .zf then zeroFlag v else s.reg q := by
  simp [State.setFlags]

theorem State.reg_writeA (s : State) (v : Word) (q : Reg) :
    (s.writeA v).reg q =
      if q = .rf then 0 else if q = .sf then signFlag .w8 v else if q = .zf then zeroFlag v
      else if q = .a then v else s.reg q := by
  simp [State.writeA, State.reg_setFlags]

theorem State.reg_modifyReg (s : State) (r : Reg) (f : Word → Word) (q : Reg) :
    (s.modifyReg r f).reg q =
      if q = .rf then 0 else if q = .sf then signFlag .w8 (f (s.reg r))
      else if q = .zf then zeroFlag (f (s.reg r)) else if q = r then f (s.reg r) else s.reg q := by
  simp [State.modifyReg, State.reg_setFlags]

@[simp] theorem State.reg_storeValue (s : State) (addr : Word) (w : Width) (v : Word) (q : Reg) :
    (s.storeValue addr w v).reg q = s.reg q := rfl

@[simp] theorem State.reg_recordFault (s : State) (k : FaultKind) (ipc : Word) (q : Reg) :
    (s.recordFault k ipc).reg q = s.reg q := rfl

@[simp] theorem State.reg_raise (s : State) (k : FaultKind) (q : Reg) : (s.raise k).reg q = s.reg q := rfl

@[simp] theorem State.reg_recordIpc (s : State) (q : Reg) : s.recordIpc.reg q = s.reg q := rfl

@[simp] theorem State.reg_submit (s : State) (r : Request) (q : Reg) : (s.submit r).reg q = s.reg q := rfl

@[simp] theorem State.reg_withCode (s : State) (bs : List Byte) (q : Reg) : (s.withCode bs).reg q = s.reg q := rfl

@[simp] theorem State.reg_endInstruction (s : State) (q : Reg) :
    s.endInstruction.reg q = if q = .exit then 0 else s.reg q :=
  s.reg_setReg .exit q 0

@[simp] theorem State.reg_emitTrace (s : State) (op : Byte) (q : Reg) : (s.emitTrace op).reg q = s.reg q := by
  unfold State.emitTrace; split <;> rfl

@[simp] theorem State.reg_afterOpcode (s : State) (q : Reg) :
    s.afterOpcode.reg q = if q = .pc then s.reg .pc + 1 else s.reg q := by
  simp [State.afterOpcode]

@[simp] theorem State.reg_construct (p : Params) (q : Reg) : (State.construct p).reg q = 0 := by
  cases q <;> rfl

/-! ## The other fields -/

@[simp] theorem State.setReg_params (s : State) (r : Reg) (v : Word) : (s.setReg r v).params = s.params := rfl
@[simp] theorem State.setReg_regs (s : State) (r : Reg) (v : Word) :
    (s.setReg r v).regs = s.regs.set r v := rfl
@[simp] theorem State.setReg_mem (s : State) (r : Reg) (v : Word) : (s.setReg r v).mem = s.mem := rfl
@[simp] theorem State.setReg_running (s : State) (r : Reg) (v : Word) :
    (s.setReg r v).running = s.running := rfl
@[simp] theorem State.setReg_fault (s : State) (r : Reg) (v : Word) : (s.setReg r v).fault = s.fault := rfl
@[simp] theorem State.setReg_verbose (s : State) (r : Reg) (v : Word) :
    (s.setReg r v).verbose = s.verbose := rfl
@[simp] theorem State.setReg_ipc (s : State) (r : Reg) (v : Word) : (s.setReg r v).ipc = s.ipc := rfl
@[simp] theorem State.setReg_request (s : State) (r : Reg) (v : Word) :
    (s.setReg r v).request = s.request := rfl
@[simp] theorem State.setReg_trace (s : State) (r : Reg) (v : Word) : (s.setReg r v).trace = s.trace := rfl

@[simp] theorem State.consume_params (s : State) (n : Nat) : (s.consume n).params = s.params := rfl
@[simp] theorem State.consume_regs (s : State) (n : Nat) :
    (s.consume n).regs = s.regs.set .pc (s.reg .pc + BitVec.ofNat 64 n) := rfl
@[simp] theorem State.consume_mem (s : State) (n : Nat) : (s.consume n).mem = s.mem := rfl
@[simp] theorem State.consume_running (s : State) (n : Nat) : (s.consume n).running = s.running := rfl
@[simp] theorem State.consume_fault (s : State) (n : Nat) : (s.consume n).fault = s.fault := rfl
@[simp] theorem State.consume_verbose (s : State) (n : Nat) : (s.consume n).verbose = s.verbose := rfl
@[simp] theorem State.consume_ipc (s : State) (n : Nat) : (s.consume n).ipc = s.ipc := rfl
@[simp] theorem State.consume_request (s : State) (n : Nat) : (s.consume n).request = s.request := rfl
@[simp] theorem State.consume_trace (s : State) (n : Nat) : (s.consume n).trace = s.trace := rfl

@[simp] theorem State.setFlags_params (s : State) (w : Width) (v : Word) :
    (s.setFlags w v).params = s.params := rfl
@[simp] theorem State.setFlags_mem (s : State) (w : Width) (v : Word) : (s.setFlags w v).mem = s.mem := rfl
@[simp] theorem State.setFlags_running (s : State) (w : Width) (v : Word) :
    (s.setFlags w v).running = s.running := rfl
@[simp] theorem State.setFlags_fault (s : State) (w : Width) (v : Word) :
    (s.setFlags w v).fault = s.fault := rfl
@[simp] theorem State.setFlags_verbose (s : State) (w : Width) (v : Word) :
    (s.setFlags w v).verbose = s.verbose := rfl
@[simp] theorem State.setFlags_ipc (s : State) (w : Width) (v : Word) : (s.setFlags w v).ipc = s.ipc := rfl
@[simp] theorem State.setFlags_request (s : State) (w : Width) (v : Word) :
    (s.setFlags w v).request = s.request := rfl
@[simp] theorem State.setFlags_trace (s : State) (w : Width) (v : Word) :
    (s.setFlags w v).trace = s.trace := rfl

@[simp] theorem State.writeA_params (s : State) (v : Word) : (s.writeA v).params = s.params := rfl
@[simp] theorem State.writeA_mem (s : State) (v : Word) : (s.writeA v).mem = s.mem := rfl
@[simp] theorem State.writeA_running (s : State) (v : Word) : (s.writeA v).running = s.running := rfl
@[simp] theorem State.writeA_fault (s : State) (v : Word) : (s.writeA v).fault = s.fault := rfl
@[simp] theorem State.writeA_verbose (s : State) (v : Word) : (s.writeA v).verbose = s.verbose := rfl
@[simp] theorem State.writeA_ipc (s : State) (v : Word) : (s.writeA v).ipc = s.ipc := rfl
@[simp] theorem State.writeA_request (s : State) (v : Word) : (s.writeA v).request = s.request := rfl
@[simp] theorem State.writeA_trace (s : State) (v : Word) : (s.writeA v).trace = s.trace := rfl

@[simp] theorem State.modifyReg_params (s : State) (r : Reg) (f : Word → Word) :
    (s.modifyReg r f).params = s.params := rfl
@[simp] theorem State.modifyReg_mem (s : State) (r : Reg) (f : Word → Word) :
    (s.modifyReg r f).mem = s.mem := rfl
@[simp] theorem State.modifyReg_running (s : State) (r : Reg) (f : Word → Word) :
    (s.modifyReg r f).running = s.running := rfl
@[simp] theorem State.modifyReg_fault (s : State) (r : Reg) (f : Word → Word) :
    (s.modifyReg r f).fault = s.fault := rfl
@[simp] theorem State.modifyReg_verbose (s : State) (r : Reg) (f : Word → Word) :
    (s.modifyReg r f).verbose = s.verbose := rfl
@[simp] theorem State.modifyReg_ipc (s : State) (r : Reg) (f : Word → Word) :
    (s.modifyReg r f).ipc = s.ipc := rfl
@[simp] theorem State.modifyReg_request (s : State) (r : Reg) (f : Word → Word) :
    (s.modifyReg r f).request = s.request := rfl
@[simp] theorem State.modifyReg_trace (s : State) (r : Reg) (f : Word → Word) :
    (s.modifyReg r f).trace = s.trace := rfl

@[simp] theorem State.storeValue_params (s : State) (addr : Word) (w : Width) (v : Word) :
    (s.storeValue addr w v).params = s.params := rfl
@[simp] theorem State.storeValue_regs (s : State) (addr : Word) (w : Width) (v : Word) :
    (s.storeValue addr w v).regs = s.regs := rfl
@[simp] theorem State.storeValue_mem (s : State) (addr : Word) (w : Width) (v : Word) :
    (s.storeValue addr w v).mem = s.mem.writeBytes addr.toNat (s.params.byteOrder.toBytes w.bytes v.toNat) := rfl
@[simp] theorem State.storeValue_running (s : State) (addr : Word) (w : Width) (v : Word) :
    (s.storeValue addr w v).running = s.running := rfl
@[simp] theorem State.storeValue_fault (s : State) (addr : Word) (w : Width) (v : Word) :
    (s.storeValue addr w v).fault = s.fault := rfl
@[simp] theorem State.storeValue_verbose (s : State) (addr : Word) (w : Width) (v : Word) :
    (s.storeValue addr w v).verbose = s.verbose := rfl
@[simp] theorem State.storeValue_ipc (s : State) (addr : Word) (w : Width) (v : Word) :
    (s.storeValue addr w v).ipc = s.ipc := rfl
@[simp] theorem State.storeValue_request (s : State) (addr : Word) (w : Width) (v : Word) :
    (s.storeValue addr w v).request = s.request := rfl
@[simp] theorem State.storeValue_trace (s : State) (addr : Word) (w : Width) (v : Word) :
    (s.storeValue addr w v).trace = s.trace := rfl

@[simp] theorem State.recordFault_params (s : State) (k : FaultKind) (ipc : Word) :
    (s.recordFault k ipc).params = s.params := rfl
@[simp] theorem State.recordFault_regs (s : State) (k : FaultKind) (ipc : Word) :
    (s.recordFault k ipc).regs = s.regs := rfl
@[simp] theorem State.recordFault_mem (s : State) (k : FaultKind) (ipc : Word) :
    (s.recordFault k ipc).mem = s.mem := rfl
@[simp] theorem State.recordFault_running (s : State) (k : FaultKind) (ipc : Word) :
    (s.recordFault k ipc).running = false := rfl
@[simp] theorem State.recordFault_fault (s : State) (k : FaultKind) (ipc : Word) :
    (s.recordFault k ipc).fault = some { kind := k, ipc := ipc, pc := s.reg .pc } := rfl
@[simp] theorem State.recordFault_verbose (s : State) (k : FaultKind) (ipc : Word) :
    (s.recordFault k ipc).verbose = s.verbose := rfl
@[simp] theorem State.recordFault_ipc (s : State) (k : FaultKind) (ipc : Word) :
    (s.recordFault k ipc).ipc = s.ipc := rfl
@[simp] theorem State.recordFault_request (s : State) (k : FaultKind) (ipc : Word) :
    (s.recordFault k ipc).request = s.request := rfl
@[simp] theorem State.recordFault_trace (s : State) (k : FaultKind) (ipc : Word) :
    (s.recordFault k ipc).trace = s.trace := rfl

@[simp] theorem State.raise_params (s : State) (k : FaultKind) : (s.raise k).params = s.params := rfl
@[simp] theorem State.raise_regs (s : State) (k : FaultKind) : (s.raise k).regs = s.regs := rfl
@[simp] theorem State.raise_mem (s : State) (k : FaultKind) : (s.raise k).mem = s.mem := rfl
@[simp] theorem State.raise_running (s : State) (k : FaultKind) : (s.raise k).running = false := rfl
@[simp] theorem State.raise_fault (s : State) (k : FaultKind) :
    (s.raise k).fault = some { kind := k, ipc := s.ipc, pc := s.reg .pc } := rfl
@[simp] theorem State.raise_verbose (s : State) (k : FaultKind) : (s.raise k).verbose = s.verbose := rfl
@[simp] theorem State.raise_ipc (s : State) (k : FaultKind) : (s.raise k).ipc = s.ipc := rfl
@[simp] theorem State.raise_request (s : State) (k : FaultKind) : (s.raise k).request = s.request := rfl
@[simp] theorem State.raise_trace (s : State) (k : FaultKind) : (s.raise k).trace = s.trace := rfl

@[simp] theorem State.recordIpc_params (s : State) : s.recordIpc.params = s.params := rfl
@[simp] theorem State.recordIpc_regs (s : State) : s.recordIpc.regs = s.regs := rfl
@[simp] theorem State.recordIpc_mem (s : State) : s.recordIpc.mem = s.mem := rfl
@[simp] theorem State.recordIpc_running (s : State) : s.recordIpc.running = s.running := rfl
@[simp] theorem State.recordIpc_fault (s : State) : s.recordIpc.fault = s.fault := rfl
@[simp] theorem State.recordIpc_verbose (s : State) : s.recordIpc.verbose = s.verbose := rfl
@[simp] theorem State.recordIpc_ipc (s : State) : s.recordIpc.ipc = s.reg .pc := rfl
@[simp] theorem State.recordIpc_request (s : State) : s.recordIpc.request = s.request := rfl
@[simp] theorem State.recordIpc_trace (s : State) : s.recordIpc.trace = s.trace := rfl

@[simp] theorem State.submit_params (s : State) (r : Request) : (s.submit r).params = s.params := rfl
@[simp] theorem State.submit_regs (s : State) (r : Request) : (s.submit r).regs = s.regs := rfl
@[simp] theorem State.submit_mem (s : State) (r : Request) : (s.submit r).mem = s.mem := rfl
@[simp] theorem State.submit_running (s : State) (r : Request) : (s.submit r).running = s.running := rfl
@[simp] theorem State.submit_fault (s : State) (r : Request) : (s.submit r).fault = s.fault := rfl
@[simp] theorem State.submit_verbose (s : State) (r : Request) : (s.submit r).verbose = s.verbose := rfl
@[simp] theorem State.submit_ipc (s : State) (r : Request) : (s.submit r).ipc = s.ipc := rfl
@[simp] theorem State.submit_request (s : State) (r : Request) : (s.submit r).request = some r := rfl
@[simp] theorem State.submit_trace (s : State) (r : Request) : (s.submit r).trace = s.trace := rfl

@[simp] theorem State.endInstruction_params (s : State) : s.endInstruction.params = s.params := rfl
@[simp] theorem State.endInstruction_regs (s : State) : s.endInstruction.regs = s.regs.set .exit 0 := rfl
@[simp] theorem State.endInstruction_mem (s : State) : s.endInstruction.mem = s.mem := rfl
@[simp] theorem State.endInstruction_running (s : State) :
    s.endInstruction.running = (s.running && decide (s.reg .exit = 0)) := rfl
@[simp] theorem State.endInstruction_fault (s : State) : s.endInstruction.fault = s.fault := rfl
@[simp] theorem State.endInstruction_verbose (s : State) : s.endInstruction.verbose = s.verbose := rfl
@[simp] theorem State.endInstruction_ipc (s : State) : s.endInstruction.ipc = s.ipc := rfl
@[simp] theorem State.endInstruction_request (s : State) : s.endInstruction.request = s.request := rfl
@[simp] theorem State.endInstruction_trace (s : State) : s.endInstruction.trace = s.trace := rfl

@[simp] theorem State.withCode_params (s : State) (bs : List Byte) : (s.withCode bs).params = s.params := rfl
@[simp] theorem State.withCode_regs (s : State) (bs : List Byte) : (s.withCode bs).regs = s.regs := rfl
@[simp] theorem State.withCode_mem (s : State) (bs : List Byte) :
    (s.withCode bs).mem = s.mem.writeBytes (s.reg .pc).toNat (bs.take (s.params.capacity - (s.reg .pc).toNat)) := rfl
@[simp] theorem State.withCode_running (s : State) (bs : List Byte) : (s.withCode bs).running = true := rfl
@[simp] theorem State.withCode_fault (s : State) (bs : List Byte) : (s.withCode bs).fault = s.fault := rfl
@[simp] theorem State.withCode_verbose (s : State) (bs : List Byte) :
    (s.withCode bs).verbose = s.verbose := rfl
@[simp] theorem State.withCode_ipc (s : State) (bs : List Byte) : (s.withCode bs).ipc = s.ipc := rfl
@[simp] theorem State.withCode_request (s : State) (bs : List Byte) : (s.withCode bs).request = none := rfl
@[simp] theorem State.withCode_trace (s : State) (bs : List Byte) : (s.withCode bs).trace = s.trace := rfl

@[simp] theorem State.emitTrace_params (s : State) (op : Byte) : (s.emitTrace op).params = s.params := by
  unfold State.emitTrace; split <;> rfl
@[simp] theorem State.emitTrace_regs (s : State) (op : Byte) : (s.emitTrace op).regs = s.regs := by
  unfold State.emitTrace; split <;> rfl
@[simp] theorem State.emitTrace_mem (s : State) (op : Byte) : (s.emitTrace op).mem = s.mem := by
  unfold State.emitTrace; split <;> rfl
@[simp] theorem State.emitTrace_running (s : State) (op : Byte) : (s.emitTrace op).running = s.running := by
  unfold State.emitTrace; split <;> rfl
@[simp] theorem State.emitTrace_fault (s : State) (op : Byte) : (s.emitTrace op).fault = s.fault := by
  unfold State.emitTrace; split <;> rfl
@[simp] theorem State.emitTrace_verbose (s : State) (op : Byte) : (s.emitTrace op).verbose = s.verbose := by
  unfold State.emitTrace; split <;> rfl
@[simp] theorem State.emitTrace_ipc (s : State) (op : Byte) : (s.emitTrace op).ipc = s.ipc := by
  unfold State.emitTrace; split <;> rfl
@[simp] theorem State.emitTrace_request (s : State) (op : Byte) : (s.emitTrace op).request = s.request := by
  unfold State.emitTrace; split <;> rfl

theorem State.emitTrace_trace (s : State) (op : Byte) :
    (s.emitTrace op).trace = s.trace ++ (if s.verbose then [{ ipc := s.ipc, op := op }] else []) := by
  unfold State.emitTrace; split <;> simp_all

@[simp] theorem State.afterOpcode_params (s : State) : s.afterOpcode.params = s.params := by
  simp [State.afterOpcode]
@[simp] theorem State.afterOpcode_regs (s : State) : s.afterOpcode.regs = s.regs.set .pc (s.reg .pc + 1) := by
  simp [State.afterOpcode]
@[simp] theorem State.afterOpcode_mem (s : State) : s.afterOpcode.mem = s.mem := by
  simp [State.afterOpcode]
@[simp] theorem State.afterOpcode_running (s : State) : s.afterOpcode.running = s.running := by
  simp [State.afterOpcode]
@[simp] theorem State.afterOpcode_fault (s : State) : s.afterOpcode.fault = s.fault := by
  simp [State.afterOpcode]
@[simp] theorem State.afterOpcode_verbose (s : State) : s.afterOpcode.verbose = s.verbose := by
  simp [State.afterOpcode]
@[simp] theorem State.afterOpcode_ipc (s : State) : s.afterOpcode.ipc = s.reg .pc := by
  simp [State.afterOpcode]
@[simp] theorem State.afterOpcode_request (s : State) : s.afterOpcode.request = s.request := by
  simp [State.afterOpcode]

theorem State.afterOpcode_trace (s : State) :
    s.afterOpcode.trace = s.trace ++
      (if s.verbose then [{ ipc := s.reg .pc, op := s.mem.readByte (s.reg .pc).toNat }] else []) := by
  rw [State.afterOpcode, State.emitTrace_trace]; rfl

end Sys2Proof.Machine
end

