-- ==== Sys2Proof/Laws/Memory.lean ====
section
/-! SUPPORT. The laws of memory: a read after a write, what a write leaves alone, and that every memory
operation keeps the canonical form. -/

namespace Sys2Proof.Machine

theorem Memory.cell?_writeByte (m : Memory) (x y : Nat) (v : Byte) :
    (m.writeByte x v).cell? y = if y = x then some v else m.cell? y := by
  induction m with
  | nil => rfl
  | cons c rest ih =>
    obtain ⟨a, b⟩ := c
    by_cases hlt : x < a
    · simp [Memory.writeByte, hlt, Memory.cell?]
    · by_cases heq : x = a
      · subst heq
        by_cases hy : y = x <;> simp [Memory.writeByte, Memory.cell?, hy]
      · by_cases hy : y = a
        · subst hy
          simp [Memory.writeByte, hlt, heq, Memory.cell?, Ne.symm heq]
        · simp [Memory.writeByte, hlt, heq, Memory.cell?, hy, ih]

@[simp] theorem Memory.readByte_writeByte (m : Memory) (x y : Nat) (v : Byte) :
    (m.writeByte x v).readByte y = if y = x then v else m.readByte y := by
  unfold Memory.readByte
  rw [Memory.cell?_writeByte]
  split <;> rfl

/-- A byte outside those written is left alone. -/
theorem Memory.readByte_writeBytes_of_outside (bs : List Byte) (m : Memory) (x y : Nat)
    (h : y < x ∨ x + bs.length ≤ y) : (Memory.writeBytes m x bs).readByte y = m.readByte y := by
  induction bs generalizing m x with
  | nil => rfl
  | cons b bs ih =>
    simp only [List.length_cons] at h
    rw [Memory.writeBytes, ih _ _ (by omega), Memory.readByte_writeByte, if_neg (by omega)]

/-- A byte of those written reads as written. -/
theorem Memory.readByte_writeBytes_of_inside (bs : List Byte) (m : Memory) (x k : Nat) (h : k < bs.length) :
    (Memory.writeBytes m x bs).readByte (x + k) = bs[k] := by
  induction bs generalizing m x k with
  | nil => simp at h
  | cons b bs ih =>
    cases k with
    | zero =>
      rw [Memory.writeBytes, Memory.readByte_writeBytes_of_outside _ _ _ _ (by omega)]
      simp
    | succ k =>
      have h' : k < bs.length := by simpa using h
      have := ih (m.writeByte x b) (x + 1) k h'
      rw [Memory.writeBytes, show x + (k + 1) = x + 1 + k by omega, this]
      rfl

@[simp] theorem Memory.length_readBytes (m : Memory) (x n : Nat) : (m.readBytes x n).length = n := by
  induction n generalizing x with
  | zero => rfl
  | succ n ih => simp [Memory.readBytes, ih]

@[simp] theorem Memory.getElem_readBytes (m : Memory) (x n k : Nat) (h : k < (m.readBytes x n).length) :
    (m.readBytes x n)[k] = m.readByte (x + k) := by
  induction n generalizing x k with
  | zero => simp at h
  | succ n ih =>
    cases k with
    | zero => rfl
    | succ k =>
      have h' : k < (m.readBytes (x + 1) n).length := by simpa using h
      have := ih (x + 1) k h'
      rw [show x + (k + 1) = x + 1 + k by omega, ← this]
      rfl

/-- Reading back a written sequence gives it. -/
@[simp] theorem Memory.readBytes_writeBytes (m : Memory) (x : Nat) (bs : List Byte) :
    (Memory.writeBytes m x bs).readBytes x bs.length = bs := by
  apply List.ext_getElem (by simp)
  intro k h _
  rw [Memory.getElem_readBytes]
  exact Memory.readByte_writeBytes_of_inside bs m x k (by simpa using h)

/-- Two memories that read alike on a range have the same bytes there. -/
theorem Memory.readBytes_congr (m m' : Memory) (x n : Nat) (h : ∀ k < n, m.readByte (x + k) = m'.readByte (x + k)) :
    m.readBytes x n = m'.readBytes x n := by
  apply List.ext_getElem (by simp)
  intro k h1 _
  simpa using h k (by simpa using h1)

/-! ## The canonical form -/

theorem Memory.mem_writeByte (m : Memory) (x : Nat) (v : Byte) (c : Host.Cell) (h : c ∈ m.writeByte x v) :
    c = (x, v) ∨ c ∈ m := by
  induction m with
  | nil => simpa [Memory.writeByte] using h
  | cons d rest ih =>
    obtain ⟨a, b⟩ := d
    simp only [Memory.writeByte] at h
    split at h
    · simpa using h
    · split at h
      · rcases List.mem_cons.1 h with h | h
        · exact .inl h
        · exact .inr (List.mem_cons_of_mem _ h)
      · rcases List.mem_cons.1 h with h | h
        · exact .inr (by simp [h])
        · exact (ih h).imp id (List.mem_cons_of_mem _)

/-- Writing a byte keeps the canonical form. -/
theorem Memory.wf_writeByte (m : Memory) (x : Nat) (v : Byte) (h : m.wf) : (m.writeByte x v).wf := by
  induction m with
  | nil => simp [Memory.writeByte, Memory.wf]
  | cons d rest ih =>
    obtain ⟨a, b⟩ := d
    have hcons : (∀ y ∈ rest.map Prod.fst, a < y) ∧ (rest.map Prod.fst).Pairwise (· < ·) := by
      simpa [Memory.wf] using h
    simp only [Memory.writeByte]
    split
    · next hlt =>
      simp only [Memory.wf, List.map_cons, List.pairwise_cons]
      refine ⟨?_, hcons.1, hcons.2⟩
      intro y hy
      rcases List.mem_cons.1 hy with rfl | hy
      · exact hlt
      · exact Nat.lt_trans hlt (hcons.1 y hy)
    · split
      · next heq => subst heq; simpa [Memory.wf] using h
      · next hlt hne =>
        simp only [Memory.wf, List.map_cons, List.pairwise_cons]
        refine ⟨?_, ih hcons.2⟩
        intro y hy
        obtain ⟨c, hc, rfl⟩ := List.mem_map.1 hy
        rcases Memory.mem_writeByte rest x v c hc with rfl | hc
        · show a < x; omega
        · exact hcons.1 c.1 (List.mem_map_of_mem hc)

/-- Writing a sequence of bytes keeps the canonical form. -/
theorem Memory.wf_writeBytes (bs : List Byte) (m : Memory) (x : Nat) (h : m.wf) :
    (Memory.writeBytes m x bs).wf := by
  induction bs generalizing m x with
  | nil => exact h
  | cons b bs ih => exact ih _ _ (Memory.wf_writeByte m x b h)

/-- A write of bytes below `n` lists no address from `n` on. -/
theorem Memory.lt_of_mem_writeBytes (bs : List Byte) (m : Memory) (x n : Nat) (hx : x + bs.length ≤ n)
    (hm : ∀ c ∈ m, c.1 < n) : ∀ c ∈ Memory.writeBytes m x bs, c.1 < n := by
  induction bs generalizing m x with
  | nil => exact hm
  | cons b bs ih =>
    simp only [List.length_cons] at hx
    refine ih _ _ (by omega) ?_
    intro c hc
    rcases Memory.mem_writeByte m x b c hc with rfl | hc
    · show x < n; omega
    · exact hm c hc

end Sys2Proof.Machine
end

