-- ==== Sys2Proof/Laws/Ops.lean ====
section
/-! SUPPORT. For each shared operation, one lemma that says everything it can do. -/

namespace Sys2Proof.Machine

/-! ## Access primitives -/

theorem State.memRead_cases (s : State) (addr : Word) (w : Width) :
    (s.inBounds addr w.bytes ∧ s.memRead addr w = .ok (s.loadValue addr w)) ∨
    (¬s.inBounds addr w.bytes ∧ s.memRead addr w = .error (.memoryFault addr w.bytes)) := by
  unfold State.memRead; split <;> simp_all

theorem State.memWrite_cases (s : State) (addr : Word) (w : Width) (v : Word) :
    (s.inBounds addr w.bytes ∧ s.memWrite addr w v = .ok (s.storeValue addr w v)) ∨
    (¬s.inBounds addr w.bytes ∧ s.memWrite addr w v = .error (.memoryFault addr w.bytes)) := by
  unfold State.memWrite; split <;> simp_all

theorem State.memModify_cases (s : State) (addr : Word) (w : Width) (f : Word → Word) :
    (s.inBounds addr w.bytes ∧
      s.memModify addr w f = .ok (f (s.loadValue addr w), s.storeValue addr w (f (s.loadValue addr w)))) ∨
    (¬s.inBounds addr w.bytes ∧ s.memModify addr w f = .error (.memoryFault addr w.bytes)) := by
  unfold State.memModify; split <;> simp_all

theorem State.pushBytes_cases (s : State) (bs : List Byte) :
    (s.inBounds (s.reg .sp) bs.length ∧
      s.pushBytes bs = .ok (State.setReg { s with mem := s.mem.writeBytes (s.reg .sp).toNat bs } .sp
        (s.reg .sp + BitVec.ofNat 64 bs.length))) ∨
    (¬s.inBounds (s.reg .sp) bs.length ∧ s.pushBytes bs = .error (.memoryFault (s.reg .sp) bs.length)) := by
  unfold State.pushBytes; split <;> simp_all

theorem State.popBytes_cases (s : State) (n : Nat) :
    (n ≤ (s.reg .sp).toNat ∧ (s.reg .sp).toNat ≤ s.params.capacity ∧
      s.popBytes n = .ok (s.mem.readBytes (s.reg .sp - BitVec.ofNat 64 n).toNat n,
        s.setReg .sp (s.reg .sp - BitVec.ofNat 64 n))) ∨
    (((s.reg .sp).toNat < n ∨ s.params.capacity < (s.reg .sp).toNat) ∧
      s.popBytes n = .error (.memoryFault (s.reg .sp) n)) := by
  unfold State.popBytes
  split
  · next h => exact .inr ⟨h, rfl⟩
  · next h => exact .inl ⟨by omega, by omega, rfl⟩

/-! ## Values in memory -/

/-- A loaded value fits its width. -/
theorem State.loadValue_lt (s : State) (addr : Word) (w : Width) :
    (s.loadValue addr w).toNat < 2 ^ (8 * w.bytes) := by
  have h := s.params.byteOrder.value_lt (s.mem.readBytes addr.toNat w.bytes)
  rw [State.loadValue, ByteOrder.toNat_word _ _ (by simpa using w.bytes_le)]
  simpa using h

theorem toNat_truncWidth (w : Width) (v : Word) : (truncWidth w v).toNat = v.toNat % 2 ^ (8 * w.bytes) := by
  have hv := v.isLt
  have := Nat.mod_le v.toNat (2 ^ (8 * w.bytes))
  rw [truncWidth, BitVec.toNat_ofNat, Nat.mod_eq_of_lt (by omega)]

/-- What was stored is loaded back, cut to its width. -/
theorem State.loadValue_storeValue (s : State) (addr : Word) (w : Width) (v : Word) :
    (s.storeValue addr w v).loadValue addr w = truncWidth w v := by
  have h := Memory.readBytes_writeBytes s.mem addr.toNat (s.params.byteOrder.toBytes w.bytes v.toNat)
  rw [ByteOrder.length_toBytes] at h
  show s.params.byteOrder.word _ = _
  rw [State.storeValue_mem, h, ByteOrder.word, ByteOrder.value_toBytes, truncWidth]

/-- A store leaves every byte outside its own alone. -/
theorem State.readByte_storeValue_of_outside (s : State) (addr : Word) (w : Width) (v : Word) (x : Nat)
    (h : x < addr.toNat ∨ addr.toNat + w.bytes ≤ x) :
    (s.storeValue addr w v).mem.readByte x = s.mem.readByte x := by
  rw [State.storeValue_mem]
  exact Memory.readByte_writeBytes_of_outside _ _ _ _ (by simpa using h)

/-! ## The handlers' shared operations -/

theorem withDest_cases (rd : Reg) (s : State) (k : Result) :
    (rd = .pc ∧ s.params.pcWritePolicy = .fault ∧
      withDest rd s k = .next ((s.consume 1).raise (.programCounterWrite (s.params.regIds.byteOf rd)))) ∨
    (¬(rd = .pc ∧ s.params.pcWritePolicy = .fault) ∧ withDest rd s k = k) := by
  unfold withDest
  split
  · next h => exact .inl ⟨h.1, h.2, rfl⟩
  · next h => exact .inr ⟨h, rfl⟩

theorem State.modifyMemory_cases (s : State) (w : Width) (addr : Word) (f : Word → Word) :
    (s.inBounds addr w.bytes ∧
      s.modifyMemory w addr f =
        .next ((s.storeValue addr w (truncWidth w (f (s.loadValue addr w)))).setFlags w
          (truncWidth w (f (s.loadValue addr w))))) ∨
    (¬s.inBounds addr w.bytes ∧ s.modifyMemory w addr f = .next (s.raise (.memoryFault addr w.bytes))) := by
  rcases s.memModify_cases addr w (fun v => truncWidth w (f v)) with ⟨h, e⟩ | ⟨h, e⟩
  · exact .inl ⟨h, by rw [State.modifyMemory, e]; rfl⟩
  · exact .inr ⟨h, by rw [State.modifyMemory, e]; rfl⟩

theorem State.loadReg_cases (s : State) (rd : Reg) (w : Width) (addr : Word) :
    (s.inBounds addr w.bytes ∧ s.loadReg rd w addr = .next (s.setReg rd (s.loadValue addr w))) ∨
    (¬s.inBounds addr w.bytes ∧ s.loadReg rd w addr = .next (s.raise (.memoryFault addr w.bytes))) := by
  rcases s.memRead_cases addr w with ⟨h, e⟩ | ⟨h, e⟩
  · exact .inl ⟨h, by rw [State.loadReg, e]; rfl⟩
  · exact .inr ⟨h, by rw [State.loadReg, e]; rfl⟩

theorem State.storeReg_cases (s : State) (w : Width) (addr : Word) (rs : Reg) :
    (s.inBounds addr w.bytes ∧ s.storeReg w addr rs = .next (s.storeValue addr w (s.reg rs))) ∨
    (¬s.inBounds addr w.bytes ∧ s.storeReg w addr rs = .next (s.raise (.memoryFault addr w.bytes))) := by
  rcases s.memWrite_cases addr w (s.reg rs) with ⟨h, e⟩ | ⟨h, e⟩
  · exact .inl ⟨h, by rw [State.storeReg, e]; rfl⟩
  · exact .inr ⟨h, by rw [State.storeReg, e]; rfl⟩

/-! ## The loop -/

theorem State.load_cases (s : State) (r : Request) :
    (s.inBounds (s.reg .sp) r.code.length ∧
      s.load r =
        { s with
          fault := none, verbose := r.verbose, request := none, running := true
          mem := s.mem.writeBytes (s.reg .sp).toNat r.code
          regs := (s.regs.set .sp (s.reg .sp + BitVec.ofNat 64 r.code.length)).set .pc (s.reg .sp) }) ∨
    (¬s.inBounds (s.reg .sp) r.code.length ∧
      s.load r =
        { s with
          fault := some
            { kind := .memoryFault (s.reg .sp) r.code.length, ipc := s.reg .pc, pc := s.reg .pc }
          verbose := r.verbose, request := none, running := false }) := by
  rcases State.pushBytes_cases { s with fault := none, verbose := r.verbose, request := none } r.code with
    ⟨h, e⟩ | ⟨h, e⟩
  · exact .inl ⟨h, by simp only [State.load, e]; rfl⟩
  · exact .inr ⟨h, by simp only [State.load, e]; rfl⟩

theorem State.cycle_cases (s : State) :
    (s.params.wf = false ∧ s.cycle = .fault .invalidParameters) ∨
    (s.params.wf = true ∧ (∃ r, s.request = some r) ∧ s.running = true ∧
      s.cycle = .refused .requestWhileRunning) ∨
    (s.params.wf = true ∧ s.running = false ∧ ∃ r, s.request = some r ∧ s.cycle = .next (s.load r)) ∨
    (s.params.wf = true ∧ s.request = none ∧ s.running = true ∧ s.cycle = s.stepInstruction) ∨
    (s.params.wf = true ∧ s.request = none ∧ s.running = false ∧ s.cycle = .next s) := by
  unfold State.cycle
  cases hw : s.params.wf with
  | false => exact .inl ⟨rfl, by simp⟩
  | true =>
    cases hr : s.request with
    | some r =>
      cases hrun : s.running with
      | true => exact .inr (.inl ⟨rfl, ⟨r, rfl⟩, rfl, by simp⟩)
      | false => exact .inr (.inr (.inl ⟨rfl, rfl, r, rfl, by simp⟩))
    | none =>
      cases hrun : s.running with
      | true => exact .inr (.inr (.inr (.inl ⟨rfl, rfl, rfl, by simp⟩)))
      | false => exact .inr (.inr (.inr (.inr ⟨rfl, rfl, rfl, by simp⟩)))

end Sys2Proof.Machine
end

