-- ==== Sys2Proof/Laws/Loop.lean ====
section
/-! SUPPORT. What a handler, a step and a run can do, each said once. -/

namespace Sys2Proof.Machine

/-! ## Handlers -/

/-- What no handler changes, and the two ways it can end: as it began, or by a raise, which changes nothing but
PROGRAM_COUNTER. -/
structure HandlerResult (s t : State) : Prop where
  params : t.params = s.params
  verbose : t.verbose = s.verbose
  ipc : t.ipc = s.ipc
  request : t.request = s.request
  trace : t.trace = s.trace
  memory : s.mem.wf → t.mem.wf
  inMemory : (∀ c ∈ s.mem, c.1 < s.params.capacity) → ∀ c ∈ t.mem, c.1 < s.params.capacity
  outcome : (t.running = s.running ∧ t.fault = s.fault) ∨ ∃ k, s.Raised t k s.ipc (t.reg .pc)

theorem HandlerResult.of_regs (s : State) (f : RegFile) : HandlerResult s { s with regs := f } :=
  ⟨rfl, rfl, rfl, rfl, rfl, id, id, .inl ⟨rfl, rfl⟩⟩

/-- A raise `n` operand bytes on. -/
theorem HandlerResult.of_raise (s : State) (n : Nat) (k : FaultKind) :
    HandlerResult s ((s.consume n).raise k) :=
  ⟨rfl, rfl, rfl, rfl, rfl, id, id,
    .inr ⟨k, rfl, rfl, rfl, fun r hr => by simp at hr; simp [hr], fun _ => rfl, rfl, rfl, rfl, rfl⟩⟩

theorem HandlerResult.of_raise_at_once (s : State) (k : FaultKind) : HandlerResult s (s.raise k) :=
  ⟨rfl, rfl, rfl, rfl, rfl, id, id, .inr ⟨k, rfl, rfl, rfl, fun _ _ => rfl, fun _ => rfl, rfl, rfl, rfl, rfl⟩⟩

theorem HandlerResult.of_store (s : State) (f : RegFile) (addr : Word) (w : Width) (v : Word)
    (h : addr.toNat + w.bytes ≤ s.params.capacity) :
    HandlerResult s { s.storeValue addr w v with regs := f } :=
  ⟨rfl, rfl, rfl, rfl, rfl, fun hm => Memory.wf_writeBytes _ _ _ hm,
    fun hi => Memory.lt_of_mem_writeBytes _ _ _ _ (by simpa using h) hi, .inl ⟨rfl, rfl⟩⟩

theorem withDest_result (rd : Reg) (s t : State) (k : Result) (h : withDest rd s k = .next t)
    (hk : ∀ u, k = .next u → HandlerResult s u) : HandlerResult s t := by
  rcases withDest_cases rd s k with ⟨_, _, e⟩ | ⟨_, e⟩ <;> rw [e] at h
  · cases h; exact .of_raise s 1 _
  · exact hk t h

theorem modifyMemory_result (s t : State) (n : Nat) (w : Width) (addr : Word) (f : Word → Word)
    (h : (s.consume n).modifyMemory w addr f = .next t) : HandlerResult s t := by
  rcases (s.consume n).modifyMemory_cases w addr f with ⟨hb, e⟩ | ⟨_, e⟩ <;> rw [e] at h <;> cases h
  · exact .of_store s _ addr w _ hb
  · exact .of_raise s n _

theorem loadReg_result (s t : State) (n : Nat) (rd : Reg) (w : Width) (addr : Word)
    (h : (s.consume n).loadReg rd w addr = .next t) : HandlerResult s t := by
  rcases (s.consume n).loadReg_cases rd w addr with ⟨_, e⟩ | ⟨_, e⟩ <;> rw [e] at h <;> cases h
  · exact .of_regs s _
  · exact .of_raise s n _

theorem storeReg_result (s t : State) (n : Nat) (w : Width) (addr : Word) (rs : Reg)
    (h : (s.consume n).storeReg w addr rs = .next t) : HandlerResult s t := by
  rcases (s.consume n).storeReg_cases w addr rs with ⟨hb, e⟩ | ⟨_, e⟩ <;> rw [e] at h <;> cases h
  · exact .of_store s _ addr w _ hb
  · exact .of_raise s n _

/-- What every handler leaves. -/
theorem exec_result (i : Instr) (s t : State) (h : exec i s = .next t) : HandlerResult s t := by
  cases i with
  | add => cases h; exact .of_regs s _
  | sub => cases h; exact .of_regs s _
  | mul => cases h; exact .of_regs s _
  | div =>
    simp only [exec, execDiv] at h
    split at h <;> cases h
    · exact .of_raise_at_once s _
    · exact .of_regs s _
  | mod =>
    simp only [exec, execMod] at h
    split at h <;> cases h
    · exact .of_raise_at_once s _
    · exact .of_regs s _
  | incReg r => exact withDest_result r s t _ h fun u hu => by cases hu; exact .of_regs s _
  | incAddrInReg w ra => exact modifyMemory_result s t 2 w _ _ h
  | incAddrLiteral w addr => exact modifyMemory_result s t 9 w _ _ h
  | decReg r => exact withDest_result r s t _ h fun u hu => by cases hu; exact .of_regs s _
  | decAddrInReg w ra => exact modifyMemory_result s t 2 w _ _ h
  | decAddrLiteral w addr => exact modifyMemory_result s t 9 w _ _ h
  | nop => cases h; exact .of_regs s _
  | moveRegReg rd rs => exact withDest_result rd s t _ h fun u hu => by cases hu; exact .of_regs s _
  | moveRegConst rd w imm => exact withDest_result rd s t _ h fun u hu => by cases hu; exact .of_regs s _
  | moveRegAddrInReg rd w ra => exact withDest_result rd s t _ h fun u hu => loadReg_result s u 3 rd w _ hu
  | moveRegAddrLiteral rd w addr => exact withDest_result rd s t _ h fun u hu => loadReg_result s u 10 rd w _ hu
  | moveAddrInRegReg ra w rs => exact storeReg_result s t 3 w _ rs h
  | exit => cases h; exact .of_regs s _

/-! ## The step -/

theorem State.finish_cases (u : State) :
    (u.running = true ∧ u.finish = u.endInstruction) ∨ (u.running = false ∧ u.finish = u) := by
  unfold State.finish; split <;> simp_all

theorem State.fetchOpcode_cases (s : State) :
    (s.inBounds (s.reg .pc) 1 ∧ s.fetchOpcode = s.afterOpcode) ∨
    (¬s.inBounds (s.reg .pc) 1 ∧ s.fetchOpcode = s.recordIpc) := by
  unfold State.fetchOpcode; split <;> simp_all

theorem State.stepInstruction_cases (s : State) :
    (∃ r, decode s.params s.fetchWindow = .error r ∧ s.stepInstruction = .next (s.raiseDecode r)) ∨
    (∃ i c, decode s.params s.fetchWindow = .ok (i, c) ∧
      s.stepInstruction = finishResult (exec i s.afterOpcode)) := by
  unfold State.stepInstruction
  cases hd : decode s.params s.fetchWindow with
  | error r => exact .inl ⟨r, rfl, rfl⟩
  | ok ic => exact .inr ⟨ic.1, ic.2, rfl, rfl⟩

/-! ## Runs -/

/-- A run of one step more goes on from the next state. -/
theorem core_run_succ (k : Nat) (s t : State) (h : step s = .next t) :
    Host.Core.run Sys2Proof.core (k + 1) s = Host.Core.run Sys2Proof.core k t := by
  have h' : Sys2Proof.core.step s = .next t := h
  simp only [Host.Core.run, h']

end Sys2Proof.Machine
end

