-- ==== Sys2Proof/Laws/PerInstr.lean ====
section
/-! SUPPORT. Statements about every instruction as syntax, one lemma per constructor. -/

namespace Sys2Proof.Laws

/-- The encoder writes as many bytes as the instruction is long (30_encoding.md R63, R64), and that is 1 to 11
(R60). -/
def EncodeLength.Statement (i : Instr) : Prop :=
  ∀ p : Params, (encode p i).length = i.length ∧ 1 ≤ i.length ∧ i.length ≤ maxLength

theorem EncodeLength.add : EncodeLength.Statement .add := fun _ => ⟨rfl, by decide, by decide⟩
theorem EncodeLength.sub : EncodeLength.Statement .sub := fun _ => ⟨rfl, by decide, by decide⟩
theorem EncodeLength.mul : EncodeLength.Statement .mul := fun _ => ⟨rfl, by decide, by decide⟩
theorem EncodeLength.div : EncodeLength.Statement .div := fun _ => ⟨rfl, by decide, by decide⟩
theorem EncodeLength.mod : EncodeLength.Statement .mod := fun _ => ⟨rfl, by decide, by decide⟩

theorem EncodeLength.incReg (r : Reg) : EncodeLength.Statement (.incReg r) := fun _ => by
  simp [encode, encodeOperands, Instr.length, maxLength]

theorem EncodeLength.incAddrInReg (w : Width) (ra : Reg) : EncodeLength.Statement (.incAddrInReg w ra) :=
  fun _ => by simp [encode, encodeOperands, Instr.length, maxLength]

theorem EncodeLength.incAddrLiteral (w : Width) (addr : Word) : EncodeLength.Statement (.incAddrLiteral w addr) :=
  fun _ => by simp [encode, encodeOperands, Instr.length, maxLength]

theorem EncodeLength.decReg (r : Reg) : EncodeLength.Statement (.decReg r) := fun _ => by
  simp [encode, encodeOperands, Instr.length, maxLength]

theorem EncodeLength.decAddrInReg (w : Width) (ra : Reg) : EncodeLength.Statement (.decAddrInReg w ra) :=
  fun _ => by simp [encode, encodeOperands, Instr.length, maxLength]

theorem EncodeLength.decAddrLiteral (w : Width) (addr : Word) : EncodeLength.Statement (.decAddrLiteral w addr) :=
  fun _ => by simp [encode, encodeOperands, Instr.length, maxLength]

theorem EncodeLength.nop : EncodeLength.Statement .nop := fun _ => ⟨rfl, by decide, by decide⟩

theorem EncodeLength.moveRegReg (rd rs : Reg) : EncodeLength.Statement (.moveRegReg rd rs) := fun _ => by
  simp [encode, encodeOperands, Instr.length, maxLength]

theorem EncodeLength.moveRegConst (rd : Reg) (w : Width) (imm : Word) :
    EncodeLength.Statement (.moveRegConst rd w imm) := fun _ => by
  have := w.bytes_le
  simp only [encode, encodeOperands, Instr.length, maxLength, List.length_cons, ByteOrder.length_toBytes]
  omega

theorem EncodeLength.moveRegAddrInReg (rd : Reg) (w : Width) (ra : Reg) :
    EncodeLength.Statement (.moveRegAddrInReg rd w ra) := fun _ => by
  simp [encode, encodeOperands, Instr.length, maxLength]

theorem EncodeLength.moveRegAddrLiteral (rd : Reg) (w : Width) (addr : Word) :
    EncodeLength.Statement (.moveRegAddrLiteral rd w addr) := fun _ => by
  simp [encode, encodeOperands, Instr.length, maxLength]

theorem EncodeLength.moveAddrInRegReg (ra : Reg) (w : Width) (rs : Reg) :
    EncodeLength.Statement (.moveAddrInRegReg ra w rs) := fun _ => by
  simp [encode, encodeOperands, Instr.length, maxLength]

theorem EncodeLength.exit : EncodeLength.Statement .exit := fun _ => ⟨rfl, by decide, by decide⟩

end Sys2Proof.Laws
end

