-- ==== Sys2Proof/Tests/Slice0.lean ====
section
/-! SUPPORT. Tests: words written out from the spec's encodings, one step of each instruction on values of
spec/95_test_vectors.md, ill-formed terms that the checks refuse, and a witness for the hypotheses of each statement. -/

namespace Sys2Proof.Tests

open Sys2Proof Sys2Proof.Machine

/-! ## Ill-formed terms -/

theorem test_wf_default : Params.default.wf = true := by decide
theorem test_wf_refuses_capacity : (Params.ofCapacity (2 ^ 64)).wf = false := by decide
theorem test_wf_refuses_repeated_opcode :
    ({ Params.default with opcodes := { OpcodeMap.default with sub := 0x00 } } : Params).wf = false := by decide
theorem test_wf_refuses_repeated_register_id :
    ({ Params.default with regIds := { RegIdMap.default with exit := 0 } } : Params).wf = false := by decide
theorem test_wf_refuses_wide_immediate : (Instr.moveRegConst .a .w1 0x100).wf .default = false := by decide
theorem test_wf_refuses_pc_destination : (Instr.incReg .pc).wf .default = false := by decide

/-! ## Decoding, from words written out by hand (30_encoding.md R62, R63, R71; 10_state.md R21) -/

def decoded (bs : List Byte) : Option (Instr × Nat) :=
  match decode .default bs with
  | .ok (i, c) => some (i, c.pos)
  | .error _ => none

def rejected (p : Params) (bs : List Byte) : Option (DecodeError × Nat) :=
  match decode p bs with
  | .ok _ => none
  | .error r => some (r.error, r.consumed)

theorem test_decode_add : decoded [0x00] = some (.add, 1) := by decide
theorem test_decode_sub : decoded [0x01] = some (.sub, 1) := by decide
theorem test_decode_mul : decoded [0x02] = some (.mul, 1) := by decide
theorem test_decode_div : decoded [0x03] = some (.div, 1) := by decide
theorem test_decode_mod : decoded [0x04] = some (.mod, 1) := by decide
theorem test_decode_inc_reg : decoded [0x05, 0x03] = some (.incReg .sp, 2) := by decide
theorem test_decode_inc_addr_in_reg : decoded [0x06, 0x02, 0x01] = some (.incAddrInReg .w2 .b, 3) := by decide
theorem test_decode_inc_addr_literal : decoded [0x07, 0x08, 0x20, 0x01, 0, 0, 0, 0, 0, 0x80] = some (.incAddrLiteral .w8 0x8000000000000120, 10) := by decide
theorem test_decode_dec_reg : decoded [0x08, 0x04] = some (.decReg .zf, 2) := by decide
theorem test_decode_dec_addr_in_reg : decoded [0x09, 0x01, 0x02] = some (.decAddrInReg .w1 .pc, 3) := by decide
theorem test_decode_dec_addr_literal : decoded [0x0A, 0x04, 0x10, 0, 0, 0, 0, 0, 0, 0] = some (.decAddrLiteral .w4 0x10, 10) := by decide
theorem test_decode_nop : decoded [0x0B] = some (.nop, 1) := by decide
theorem test_decode_move_reg_reg : decoded [0x0C, 0x05, 0x06] = some (.moveRegReg .sf .rf, 3) := by decide
theorem test_decode_move_reg_const : decoded [0x0D, 0x07, 0x04, 0x78, 0x56, 0x34, 0x12] = some (.moveRegConst .exit .w4 0x12345678, 7) := by decide
theorem test_decode_move_reg_addr_in_reg : decoded [0x0E, 0x01, 0x04, 0x00] = some (.moveRegAddrInReg .b .w4 .a, 4) := by decide
theorem test_decode_move_reg_addr_literal : decoded [0x0F, 0x00, 0x02, 0x00, 0x01, 0, 0, 0, 0, 0, 0] = some (.moveRegAddrLiteral .a .w2 0x100, 11) := by decide
theorem test_decode_move_addr_in_reg_reg : decoded [0x10, 0x00, 0x02, 0x01] = some (.moveAddrInRegReg .a .w2 .b, 4) := by decide
theorem test_decode_exit : decoded [0x11] = some (.exit, 1) := by decide

theorem test_reject_unknown_opcode : rejected .default [0x12] = some (.unknownOpcode 0x12, 0) := by decide
theorem test_reject_register_before_width : rejected .default [0x0D, 9, 3] = some (.invalidRegister 9, 2) := by decide
theorem test_reject_pc_before_width : rejected .default [0x0E, 2, 3, 0] = some (.programCounterWrite 2, 2) := by
  decide
theorem test_reject_width : rejected .default [0x0D, 0, 3, 5] = some (.invalidOperandSize 3, 3) := by decide
theorem test_reject_short_immediate : rejected .default [0x0D, 0, 8, 1, 2] = some (.endOfMemory 8, 3) := by decide
theorem test_big_endian_immediate :
    (match decode { Params.default with byteOrder := .big } [0x0D, 0, 2, 1, 0] with
      | .ok (i, _) => some i
      | .error _ => none) = some (.moveRegConst .a .w2 0x100) := by decide
theorem test_decodeTableWord : decodeTableWord 8 0x0B = some .nop := by decide

/-! ## One step of each instruction (values of spec/95_test_vectors.md) -/

/-- A run in progress at address 0 with the given code, followed by zeros. -/
def start (code : List Byte) : State := State.reset.withCode (code ++ List.replicate 11 0)

/-- The state with a little-endian value in memory. -/
def put (s : State) (addr : Nat) (bs : List Byte) : State := { s with mem := s.mem.writeBytes addr bs }

/-- One register after one step, or `none` where the step gives no next state. -/
def regAfter (s : State) (r : Reg) : Option Word :=
  match step s with
  | .next t => some (t.reg r)
  | .fault _ => none
  | .refused _ => none

/-- A, ZF, SF and RF after one step. -/
def resultAfter (s : State) : Option (Word × Word × Word × Word) :=
  match step s with
  | .next t => some (t.reg .a, t.reg .zf, t.reg .sf, t.reg .rf)
  | .fault _ => none
  | .refused _ => none

/-- `n` bytes of memory from `addr` on, with ZF and SF, after one step. -/
def bytesAfter (s : State) (addr n : Nat) : Option (List Byte × Word × Word) :=
  match step s with
  | .next t => some (t.mem.readBytes addr n, t.reg .zf, t.reg .sf)
  | .fault _ => none
  | .refused _ => none

/-- Whether the run goes on, and the fault record, after one step. -/
def endAfter (s : State) : Option (Bool × Option FaultRecord) :=
  match step s with
  | .next t => some (t.running, t.fault)
  | .fault _ => none
  | .refused _ => none

/-- V2, V3. -/
theorem test_add_wraps :
    resultAfter (((start [0x00]).setReg .a 0xFFFFFFFFFFFFFFFF).setReg .b 1) = some (0, 1, 0, 0) := by decide
theorem test_add_sets_sign :
    resultAfter (((start [0x00]).setReg .a 0x7FFFFFFFFFFFFFFF).setReg .b 1) =
      some (0x8000000000000000, 0, 1, 0) := by decide
/-- V9. -/
theorem test_sub_borrows :
    resultAfter (((start [0x01]).setReg .a 3).setReg .b 5) = some (0xFFFFFFFFFFFFFFFE, 0, 1, 0) := by decide
/-- V16, V18. -/
theorem test_mul_drops_high_half :
    resultAfter (((start [0x02]).setReg .a 0x100000000).setReg .b 0x100000000) = some (0, 1, 0, 0) := by decide
theorem test_mul_sign :
    resultAfter (((start [0x02]).setReg .a 0x8000000000000000).setReg .b 0xFFFFFFFFFFFFFFFF) =
      some (0x8000000000000000, 0, 1, 0) := by decide
/-- V21, V29. -/
theorem test_div_remainder :
    resultAfter (((start [0x03]).setReg .a 17).setReg .b 5) = some (3, 0, 0, 2) := by decide
theorem test_div_by_zero :
    endAfter ((start [0x03]).setReg .a 5) = some (false, some { kind := .divideByZero, ipc := 0, pc := 1 }) := by decide
/-- V33, V37. -/
theorem test_mod_sign :
    resultAfter (((start [0x04]).setReg .a 0x8000000000000000).setReg .b 0x8000000000000001) =
      some (0x8000000000000000, 0, 1, 0) := by decide
theorem test_mod_by_zero :
    endAfter ((start [0x04]).setReg .a 5) = some (false, some { kind := .divideByZero, ipc := 0, pc := 1 }) := by decide
/-- V44, V51b. -/
theorem test_inc_rf_is_overwritten : regAfter ((start [0x05, 0x06]).setReg .rf 5) .rf = some 0 := by decide
theorem test_inc_pc_under_jump :
    regAfter { start [0x05, 0x02] with params := { Params.default with pcWritePolicy := .jump } } .pc = some 3 := by
  decide
/-- V48, V50. -/
theorem test_dec_sf_keeps_flag : regAfter (start [0x08, 0x05]) .sf = some 1 := by decide
theorem test_dec_exit_halts : endAfter (start [0x08, 0x07]) = some (false, none) := by decide
/-- V53. -/
theorem test_inc_addr_in_reg_wraps :
    bytesAfter (put ((start [0x06, 2, 0]).setReg .a 0x100) 0x100 [0xFF, 0xFF, 0]) 0x100 3 =
      some ([0, 0, 0], 1, 0) := by decide
/-- V63, V67. -/
theorem test_inc_addr_literal :
    bytesAfter (put (start [0x07, 1, 0x20, 0, 0, 0, 0, 0, 0, 0]) 0x20 [0xFF]) 0x20 1 = some ([0], 1, 0) := by decide
theorem test_inc_addr_literal_does_not_wrap :
    endAfter (start [0x07, 8, 0xFF, 0xFF, 0xFF, 0xFF, 0xFF, 0xFF, 0xFF, 0xFF]) =
      some (false, some { kind := .memoryFault 0xFFFFFFFFFFFFFFFF 8, ipc := 0, pc := 10 }) := by decide
/-- V60. -/
theorem test_dec_addr_in_reg_narrow_sign :
    bytesAfter (put ((start [0x09, 2, 0]).setReg .a 0x100) 0x100 [0x00, 0x80]) 0x100 2 =
      some ([0xFF, 0x7F], 0, 0) := by decide
/-- V65. -/
theorem test_dec_addr_literal_last_bytes :
    bytesAfter (put (start [0x0A, 2, 0xFE, 0xFF, 0, 0, 0, 0, 0, 0]) 0xFFFE [0, 0]) 0xFFFE 2 =
      some ([0xFF, 0xFF], 0, 1) := by decide
/-- V110. -/
theorem test_nop_keeps_flags : resultAfter (((start [0x0B]).setReg .a 1).setReg .zf 1) = some (1, 1, 0, 0) := by decide
/-- V74, V76. -/
theorem test_move_reads_pc_past_operands : regAfter (start [0x0C, 0, 2]) .a = some 3 := by decide
theorem test_move_to_exit_halts : endAfter ((start [0x0C, 7, 0]).setReg .a 3) = some (false, none) := by decide
/-- V79, V82. -/
theorem test_move_const_zero_extends :
    regAfter ((start [0x0D, 0, 2, 0x00, 0x80]).setReg .a 0xFFFFFFFFFFFFFFFF) .a = some 0x8000 := by decide
theorem test_move_zero_to_exit_goes_on : endAfter (start [0x0D, 7, 1, 0]) = some (true, none) := by decide
/-- V85, V88. -/
theorem test_load_into_address_register :
    regAfter (put ((start [0x0E, 0, 1, 0]).setReg .a 0x100) 0x100 [0x80]) .a = some 0x80 := by decide
theorem test_load_past_end :
    endAfter ((start [0x0E, 0, 2, 0]).setReg .a 0xFFFF) =
      some (false, some { kind := .memoryFault 0xFFFF 2, ipc := 0, pc := 4 }) := by decide
/-- V89. -/
theorem test_load_literal :
    regAfter (put (start [0x0F, 0, 2, 0, 1, 0, 0, 0, 0, 0, 0]) 0x100 [0xFF, 0xFF]) .a = some 0xFFFF := by decide
/-- V92. -/
theorem test_store_low_bytes :
    bytesAfter (put (((start [0x10, 0, 2, 1]).setReg .a 0x100).setReg .b 0xAABBCCDD) 0x100 [0x11, 0x11, 0x11, 0x11])
      0x100 4 = some ([0xDD, 0xCC, 0x11, 0x11], 0, 0) := by decide
/-- V111. -/
theorem test_exit_halts : endAfter (start [0x11]) = some (false, none) := by decide
theorem test_exit_is_cleared : regAfter (start [0x11]) .exit = some 0 := by decide

/-! ## The loop and the request -/

/-- V105. -/
theorem test_unknown_opcode_keeps_pc :
    endAfter (start [0x12]) = some (false, some { kind := .unknownOpcode 0x12, ipc := 0, pc := 0 }) := by decide
/-- V51a, V51c, V69. -/
theorem test_step_records_pc_write :
    endAfter (start [0x05, 0x02]) = some (false, some { kind := .programCounterWrite 2, ipc := 0, pc := 2 }) := by decide
theorem test_step_records_invalid_register :
    endAfter (start [0x05, 0x08]) = some (false, some { kind := .invalidRegister 8, ipc := 0, pc := 2 }) := by decide
theorem test_step_records_invalid_width :
    endAfter (start [0x06, 0x03, 0x00]) = some (false, some { kind := .invalidOperandSize 3, ipc := 0, pc := 2 }) := by
  decide
/-- A memory of six bytes that ends within the immediate of MOVE_REG_CONST (40_execution_loop.md R81). -/
def cut : State := (State.construct (.ofCapacity 6)).withCode [0x0D, 0, 4, 1, 2, 3]
theorem test_step_records_operand_fetch :
    endAfter cut = some (false, some { kind := .memoryFault 3 4, ipc := 0, pc := 3 }) := by decide
/-- V112. -/
theorem test_load_that_does_not_fit :
    endAfter ((State.construct (.ofCapacity 2)).submit { code := [0, 0, 0], verbose := false }) =
      some (false, some { kind := .memoryFault 0 3, ipc := 0, pc := 0 }) := by decide
/-- V114, after the load of no code. -/
theorem test_fetch_in_empty_memory :
    endAfter { State.construct (.ofCapacity 0) with running := true } =
      some (false, some { kind := .memoryFault 0 1, ipc := 0, pc := 0 }) := by decide
theorem test_withFetchWord_runs : resultAfter (State.reset.withFetchWord 8 0x00) = some (0, 1, 0, 0) := by decide
theorem test_reset_is_idle : endAfter State.reset = some (false, none) := by decide


/-! ## Witnesses: for each statement with hypotheses, a state and operands that meet them, at the bounds of a range -/

/-- A run in progress on a NOP, under the policy `jump`. -/
def jumping : State := { start [0x0B] with params := { Params.default with pcWritePolicy := .jump } }

/-- What the step gives, where it is a next state. -/
def next (s : State) : State :=
  match step s with
  | .next t => t
  | .fault _ => s
  | .refused _ => s

theorem start_ready (code : List Byte) : (start code).Ready := ⟨rfl, rfl, rfl⟩

theorem witness_ConstructionMeetsInvariant : Params.default.wf = true ∧ 2 ^ 64 - 1 < 2 ^ 64 := by decide

theorem witness_access_in_bounds_at_the_end :
    (0xFFFE : Word).toNat + Width.w2.bytes ≤ State.reset.params.capacity ∧
    State.reset.params.byteOrder = .little := by decide

theorem witness_access_out_of_bounds_by_one :
    State.reset.params.capacity < (0xFFFF : Word).toNat + Width.w2.bytes ∧
    State.reset.params.byteOrder = .little := by decide

theorem witness_AccessOutOfBoundsFaults_push :
    (State.reset.setReg .sp 0xFFFF).reg .sp = 0xFFFF ∧ 1 ≤ ([0] : List Byte).length ∧
    (0xFFFF : Word).toNat + 1 ≤ State.reset.params.capacity ∧
    (State.reset.setReg .sp 0x10000).reg .sp = 0x10000 ∧
    State.reset.params.capacity < (0x10000 : Word).toNat + 1 := by decide

theorem witness_StoreThenLoadGivesLowBytes : ∃ t, State.reset.memWrite 0xFFFE .w2 0x12345 = .ok t := ⟨_, rfl⟩

theorem witness_PushBytesWritesAtStackPointer :
    State.reset.params.capacity < 2 ^ 64 ∧
    ((State.reset.setReg .sp 0xFFFE).reg .sp).toNat + [0, 0].length ≤ State.reset.params.capacity ∧
    State.reset.params.capacity < ((State.reset.setReg .sp 0xFFFF).reg .sp).toNat + [0, 0].length := by decide

theorem witness_PopBytesReadsBelowStackPointer :
    (12 ≤ ((State.reset.setReg .sp 12).reg .sp).toNat ∧
      ((State.reset.setReg .sp 12).reg .sp).toNat ≤ State.reset.params.capacity) ∧
    ((State.reset.setReg .sp 12).reg .sp).toNat < 13 ∧
    State.reset.params.capacity < ((State.reset.setReg .sp 0x10001).reg .sp).toNat := by decide

theorem witness_PushWordPushesItsEightBytes : State.reset.params.byteOrder = .little := rfl

theorem witness_PopUndoesPush :
    State.reset.params.capacity < 2 ^ 64 ∧ ∃ t, (State.reset.setReg .sp 0xFFFE).pushBytes [1, 2] = .ok t :=
  ⟨by decide, _, rfl⟩

theorem witness_division : ((start [0x03]).setReg .b 1).reg .b ≠ 0 ∧ (start [0x03]).reg .b = 0 := by decide

theorem witness_AdmitsDest : (start [0x0B]).AdmitsDest .a ∧ jumping.AdmitsDest .pc :=
  ⟨(fun h => by cases h), fun _ => rfl⟩

theorem witness_memory_operand_at_the_end :
    ((((start [0x0B]).setReg .a 0xFFFE).consume 2).reg .a).toNat + Width.w2.bytes ≤ (start [0x0B]).params.capacity ∧
    (0xFFFE : Word).toNat + Width.w2.bytes ≤ (start [0x0B]).params.capacity ∧
    ((((start [0x0B]).setReg .a 0xFFFE).consume 3).reg .a).toNat + Width.w2.bytes ≤
      (start [0x0B]).params.capacity := by decide

theorem witness_MoveRegConstLoadsImmediate :
    (Instr.moveRegConst .a .w1 0xFF).wf (start [0x0B]).params = true ∧
    (Instr.moveRegConst .pc .w8 0xFFFFFFFFFFFFFFFF).wf jumping.params = true := by decide

theorem witness_ExitRequestsHalt : (start [0x11]).running = true := rfl

theorem witness_DestinationPcRaises :
    (Instr.moveRegReg .pc .a).dest = some .pc ∧ (start [0x0C, 2, 0]).params.pcWritePolicy = .fault := by decide

theorem witness_DataAccessOutOfBoundsRaises :
    (start [0x0B]).params.capacity <
      ((((start [0x0B]).setReg .a 0xFFFF).consume 2).reg .a).toNat + Width.w2.bytes ∧
    (start [0x0B]).params.capacity < (0xFFFF : Word).toNat + Width.w2.bytes ∧
    (start [0x0B]).params.capacity <
      ((((start [0x0B]).setReg .a 0xFFFF).consume 3).reg .a).toNat + Width.w2.bytes := by decide

theorem witness_StepRunsDecodedInstruction :
    (start [0x05, 0]).Ready ∧
    ∃ c, decode (start [0x05, 0]).params (start [0x05, 0]).fetchWindow = .ok (.incReg .a, c) :=
  ⟨start_ready _, _, rfl⟩

theorem witness_StepRunsEncodedInstruction :
    (start [0x05, 0]).Ready ∧ (Instr.incReg .a).wf (start [0x05, 0]).params = true ∧
    ((start [0x05, 0]).reg .pc).toNat + (Instr.incReg .a).length ≤ (start [0x05, 0]).params.capacity ∧
    (start [0x05, 0]).mem.readBytes ((start [0x05, 0]).reg .pc).toNat (Instr.incReg .a).length =
      encode (start [0x05, 0]).params (.incReg .a) :=
  ⟨start_ready _, by decide, by decide, by decide⟩

theorem witness_HaltCheckThenVolatileReset :
    (start [0x11]).Ready ∧
    (∃ c, decode (start [0x11]).params (start [0x11]).fetchWindow = .ok (.exit, c)) ∧
    ∃ u, exec .exit (start [0x11]).afterOpcode = .next u ∧ u.running = true :=
  ⟨start_ready _, ⟨_, rfl⟩, _, rfl, rfl⟩

theorem witness_RejectedDecodeRaises :
    (start [0x0D, 0, 3]).Ready ∧
    decode (start [0x0D, 0, 3]).params (start [0x0D, 0, 3]).fetchWindow =
      .error { error := .invalidOperandSize 3, consumed := 3 } :=
  ⟨start_ready _, rfl⟩

theorem witness_RejectedOperandByteRaises_width :
    (start [0x0D, 0, 3]).Ready ∧ (Instr.moveRegConst .a .w1 0).wf (start [0x0D, 0, 3]).params = true ∧
    (2, .width) ∈ (Instr.moveRegConst .a .w1 0).operandFields ∧
    ((start [0x0D, 0, 3]).reg .pc).toNat + 2 < (start [0x0D, 0, 3]).params.capacity ∧
    (start [0x0D, 0, 3]).mem.readBytes ((start [0x0D, 0, 3]).reg .pc).toNat 2 =
      (encode (start [0x0D, 0, 3]).params (.moveRegConst .a .w1 0)).take 2 ∧
    (start [0x0D, 0, 3]).mem.readByte (((start [0x0D, 0, 3]).reg .pc).toNat + 2) = 3 ∧
    (3 : Byte).toNat ∉ [1, 2, 4, 8] :=
  ⟨start_ready _, by decide, by decide, by decide, by decide, by decide, by decide⟩

theorem witness_RejectedOperandByteRaises_register :
    (start [0x0C, 0, 8]).Ready ∧ (Instr.moveRegReg .a .b).wf (start [0x0C, 0, 8]).params = true ∧
    (2, .reg) ∈ (Instr.moveRegReg .a .b).operandFields ∧
    ((start [0x0C, 0, 8]).reg .pc).toNat + 2 < (start [0x0C, 0, 8]).params.capacity ∧
    (start [0x0C, 0, 8]).mem.readBytes ((start [0x0C, 0, 8]).reg .pc).toNat 2 =
      (encode (start [0x0C, 0, 8]).params (.moveRegReg .a .b)).take 2 ∧
    (start [0x0C, 0, 8]).mem.readByte (((start [0x0C, 0, 8]).reg .pc).toNat + 2) = 8 ∧
    (start [0x0C, 0, 8]).params.regIds = .default ∧ 8 ≤ (8 : Byte).toNat :=
  ⟨start_ready _, by decide, by decide, by decide, by decide, by decide, rfl, by decide⟩

theorem witness_RejectedOperandByteRaises_destination :
    (start [0x0C, 2]).Ready ∧ (Instr.moveRegReg .a .b).wf (start [0x0C, 2]).params = true ∧
    (1, .dest) ∈ (Instr.moveRegReg .a .b).operandFields ∧
    ((start [0x0C, 2]).reg .pc).toNat + 1 < (start [0x0C, 2]).params.capacity ∧
    (start [0x0C, 2]).mem.readBytes ((start [0x0C, 2]).reg .pc).toNat 1 =
      (encode (start [0x0C, 2]).params (.moveRegReg .a .b)).take 1 ∧
    (start [0x0C, 2]).mem.readByte (((start [0x0C, 2]).reg .pc).toNat + 1) = 2 ∧
    (start [0x0C, 2]).params.pcWritePolicy = .fault ∧ (2 : Byte) = (start [0x0C, 2]).params.regIds.byteOf .pc :=
  ⟨start_ready _, by decide, by decide, by decide, by decide, by decide, rfl, rfl⟩

theorem witness_OperandFetchPastEndRaises :
    cut.Ready ∧ (Instr.moveRegConst .a .w4 0).wf cut.params = true ∧
    (3, .value 4) ∈ (Instr.moveRegConst .a .w4 0).operandFields ∧ (cut.reg .pc).toNat + 3 ≤ cut.params.capacity ∧
    cut.params.capacity < (cut.reg .pc).toNat + 3 + (OperandField.value 4).bytes ∧
    cut.mem.readBytes (cut.reg .pc).toNat 3 = (encode cut.params (.moveRegConst .a .w4 0)).take 3 :=
  ⟨⟨rfl, rfl, rfl⟩, by decide, by decide, by decide, by decide, by decide⟩

theorem witness_UnknownOpcodeLeavesStateUntouched :
    (start [0x12]).Ready ∧ (start [0x12]).params.opcodes = .default ∧
    ((start [0x12]).reg .pc).toNat < (start [0x12]).params.capacity ∧
    0x12 ≤ ((start [0x12]).mem.readByte ((start [0x12]).reg .pc).toNat).toNat :=
  ⟨start_ready _, rfl, by decide, by decide⟩

theorem witness_OpcodeFetchPastEndRaises :
    ((start []).setReg .pc 0x10000).Ready ∧
    ((start []).setReg .pc 0x10000).params.capacity ≤ (((start []).setReg .pc 0x10000).reg .pc).toNat :=
  ⟨⟨rfl, rfl, rfl⟩, by decide⟩

theorem witness_StepEmitsOneTraceEvent :
    (start [0x0B]).request = none ∧ step (start [0x0B]) = .next (next (start [0x0B])) := ⟨rfl, rfl⟩

theorem witness_completed_instruction :
    (start [0x0B]).Ready ∧ (start [0x0B]).fault = none ∧
    (∃ c, decode (start [0x0B]).params (start [0x0B]).fetchWindow = .ok (.nop, c)) ∧
    Instr.nop.dest ≠ some .pc ∧ (start [0x0B]).params.pcWritePolicy = .fault ∧
    step (start [0x0B]) = .next (next (start [0x0B])) ∧ (next (start [0x0B])).fault = none :=
  ⟨start_ready _, rfl, ⟨_, rfl⟩, by decide, rfl, rfl, rfl⟩

theorem witness_FaultingStepChangesOnlyPc :
    (start [0x03]).Ready ∧ (start [0x03]).fault = none ∧ step (start [0x03]) = .next (next (start [0x03])) ∧
    (next (start [0x03])).fault ≠ none :=
  ⟨start_ready _, rfl, rfl, by decide⟩

theorem witness_RunStopsOnlyByHaltOrFault :
    (start [0x11]).Ready ∧ (start [0x11]).fault = none ∧ step (start [0x11]) = .next (next (start [0x11])) ∧
    (next (start [0x11])).running = false :=
  ⟨start_ready _, rfl, rfl, rfl⟩

theorem witness_StepAnswersNextState :
    (start [0x0B]).params.wf = true ∧ ¬((start [0x0B]).running = true ∧ (start [0x0B]).request ≠ none) := by decide

theorem witness_FetchSeesStoredBytes :
    ∃ t, ((start []).setReg .pc 0x100).memWrite 0x100 .w2 0x0B0B = .ok t ∧ t.reg .pc = 0x100 := ⟨_, rfl, rfl⟩

/-- A request at the port of an idle block whose code, of two bytes, goes to `sp`. -/
def asking (sp : Word) : State := (State.reset.setReg .sp sp).submit { code := [0x0B, 0x11], verbose := true }

theorem witness_LoadPlacesCodeAndStarts :
    (asking 0xFFFE).params.wf = true ∧ (asking 0xFFFE).running = false ∧
    (asking 0xFFFE).request = some { code := [0x0B, 0x11], verbose := true } ∧
    ((asking 0xFFFE).reg .sp).toNat + 2 ≤ (asking 0xFFFE).params.capacity := by decide

theorem witness_LoadThatDoesNotFitFaults :
    (asking 0xFFFF).params.wf = true ∧ (asking 0xFFFF).running = false ∧
    (asking 0xFFFF).request = some { code := [0x0B, 0x11], verbose := true } ∧
    (asking 0xFFFF).params.capacity < ((asking 0xFFFF).reg .sp).toNat + 2 := by decide

theorem witness_RequestDuringRunIsRefused :
    (asking 0).params.wf = true ∧ (asking 0).request = some { code := [0x0B, 0x11], verbose := true } ∧
    ({ asking 0 with running := true } : State).running = true ∧ (asking 0).running = false := by decide

theorem witness_IdleBlockKeepsState :
    State.reset.params.wf = true ∧ State.reset.running = false ∧ State.reset.request = none := by decide

theorem witness_DecodeRegChecksIdentifier :
    Params.default.regIds = .default ∧ (7 : Byte).toNat < Reg.all.length ∧ 8 ≤ (8 : Byte).toNat := by decide

theorem witness_DecodeDestRegAppliesPolicy :
    decodeReg .default { pos := 1, rest := [] } = .error { error := .endOfMemory 1, consumed := 1 } ∧
    decodeReg .default { pos := 1, rest := [0] } = .ok (.a, { pos := 2, rest := [] }) ∧
    (Reg.a = .pc → Params.default.pcWritePolicy = .jump) ∧
    decodeReg .default { pos := 1, rest := [2] } = .ok (.pc, { pos := 2, rest := [] }) ∧
    Params.default.pcWritePolicy = .fault := ⟨rfl, rfl, (fun h => by cases h), rfl, rfl⟩

theorem witness_DecodeWidthChecksSize :
    (3 : Byte).toNat ∉ [1, 2, 4, 8] ∧ (0 : Byte).toNat ∉ [1, 2, 4, 8] := by decide

theorem witness_DecodeOfEncodeIsIdentity :
    Params.default.wf = true ∧ (Instr.moveRegConst .exit .w8 0xFFFFFFFFFFFFFFFF).wf .default = true := by decide

theorem witness_EncodeOfDecodeIsIdentity :
    ∃ c, decode .default [0x0C, 0x01, 0x06, 0x11] = .ok (.moveRegReg .b .rf, c) := ⟨_, rfl⟩

theorem witness_StepKeepsMachineInvariant :
    (start [0x05, 0]).Inv ∧ step (start [0x05, 0]) = .next (next (start [0x05, 0])) :=
  ⟨⟨rfl, by decide, by decide, rfl, fun _ => rfl, fun _ => by decide⟩, rfl⟩

theorem witness_EveryRunEndsWithoutJumps :
    (start [0x0B]).params.wf = true ∧ (start [0x0B]).params.pcWritePolicy = .fault ∧
    (start [0x0B]).request = none := by decide

end Sys2Proof.Tests
end

section
/-! PROOFS. Construction (spec/10_state.md R35). -/

namespace Sys2Proof.Machine

/-- A memory in which nothing has been written holds `MEM_INIT` everywhere (20_memory.md R57). -/
@[simp] theorem Memory.readByte_nil (x : Nat) : Memory.readByte [] x = Config.memInit x := rfl

@[simp] theorem State.construct_mem (p : Params) : (State.construct p).mem = [] := rfl

/-- Settles O1: the registers by `State.reg_construct`, the bytes because construction writes none, and every
other piece of state by the definition of `State.construct`. -/
theorem constructionValues : Obligations.ConstructionValues := by
  intro p
  have hmem : ∀ x, (State.construct p).mem.readByte x = Config.memInit x := fun x => by
    rw [State.construct_mem, Memory.readByte_nil]
  exact ⟨State.reg_construct p, rfl, rfl, rfl, rfl, hmem, rfl⟩

end Sys2Proof.Machine
end

section
/-! PROOFS. Memory and the stack (spec/20_memory.md R42 to R44 and R50 to R52). -/

namespace Sys2Proof.Machine

/-! ## Little-endian bytes (00_scope.md R11, 20_memory.md R45) -/

/-- Byte `k` of a word in the terms of `leBytes` is its bits `8k+7:8k`. -/
theorem ofNat_toNat_div_eq_extractLsb' (v : Word) (k : Nat) :
    BitVec.ofNat 8 (v.toNat / 2 ^ (8 * k)) = v.extractLsb' (8 * k) 8 := by
  rw [BitVec.extractLsb', Nat.shiftRight_eq_div_pow]

theorem leBytes_toNat_eq_map_extractLsb' (n : Nat) (v : Word) :
    leBytes n v.toNat = (List.range n).map fun k => v.extractLsb' (8 * k) 8 := by
  apply List.ext_getElem (by simp)
  intro k hk _
  rw [getElem_leBytes, ofNat_toNat_div_eq_extractLsb', List.getElem_map, List.getElem_range]

/-- Byte 0 carries weight 1; each later byte is one of the bytes from `x + 1` on, at 256 times its weight there. -/
theorem Memory.leValue_readBytes (m : Memory) (x n : Nat) :
    leValue (m.readBytes x n) =
      ((List.range n).map fun k => (m.readByte (x + k)).toNat * 2 ^ (8 * k)).sum := by
  induction n generalizing x with
  | zero => rfl
  | succ n ih =>
    have hterm (k : Nat) : (m.readByte (x + (k + 1))).toNat * 2 ^ (8 * (k + 1)) =
        256 * ((m.readByte (x + 1 + k)).toNat * 2 ^ (8 * k)) := by
      rw [show x + (k + 1) = x + 1 + k by omega]
      ring
    rw [Memory.readBytes, leValue, ih, List.range_succ_eq_map, List.map_cons, List.map_map, List.sum_cons,
      ← List.sum_map_mul_left]
    simp [Function.comp_def, hterm]

/-- A loaded word is the value of its bytes: the width is at most that of a word. -/
theorem State.toNat_loadValue (s : State) (addr : Word) (w : Width) :
    (s.loadValue addr w).toNat = s.params.byteOrder.value (s.mem.readBytes addr.toNat w.bytes) :=
  ByteOrder.toNat_word _ _ (by simpa using w.bytes_le)

/-- Under the little-endian order, byte `k` of a store holds byte `k` of the value (20_memory.md R43). -/
theorem State.readByte_storeValue_of_little (s : State) (addr : Word) (w : Width) (v : Word) (k : Nat)
    (ho : s.params.byteOrder = .little) (hk : k < w.bytes) :
    (s.storeValue addr w v).mem.readByte (addr.toNat + k) = v.extractLsb' (8 * k) 8 := by
  rw [State.storeValue_mem, ho]
  have hlen : k < (leBytes w.bytes v.toNat).length := by simpa using hk
  calc (s.mem.writeBytes addr.toNat (leBytes w.bytes v.toNat)).readByte (addr.toNat + k)
      _ = (leBytes w.bytes v.toNat)[k] := Memory.readByte_writeBytes_of_inside _ _ _ _ hlen
      _ = v.extractLsb' (8 * k) 8 := by rw [getElem_leBytes, ofNat_toNat_div_eq_extractLsb']

/-! ## Each access on either side of its bound (20_memory.md R41) -/

theorem State.memRead_of_inBounds {s : State} {addr : Word} {w : Width} (h : s.inBounds addr w.bytes) :
    s.memRead addr w = .ok (s.loadValue addr w) := if_pos h

theorem State.memRead_of_outOfBounds {s : State} {addr : Word} {w : Width} (h : ¬s.inBounds addr w.bytes) :
    s.memRead addr w = .error (.memoryFault addr w.bytes) := if_neg h

theorem State.memWrite_of_inBounds {s : State} {addr : Word} {w : Width} (v : Word)
    (h : s.inBounds addr w.bytes) : s.memWrite addr w v = .ok (s.storeValue addr w v) := if_pos h

theorem State.memWrite_of_outOfBounds {s : State} {addr : Word} {w : Width} (v : Word)
    (h : ¬s.inBounds addr w.bytes) : s.memWrite addr w v = .error (.memoryFault addr w.bytes) := if_neg h

theorem State.memModify_of_inBounds {s : State} {addr : Word} {w : Width} (f : Word → Word)
    (h : s.inBounds addr w.bytes) :
    s.memModify addr w f = .ok (f (s.loadValue addr w), s.storeValue addr w (f (s.loadValue addr w))) :=
  if_pos h

theorem State.memModify_of_outOfBounds {s : State} {addr : Word} {w : Width} (f : Word → Word)
    (h : ¬s.inBounds addr w.bytes) : s.memModify addr w f = .error (.memoryFault addr w.bytes) := if_neg h

/-- The state a push leaves when its bytes fit. -/
def State.pushed (s : State) (bs : List Byte) : State :=
  State.setReg { s with mem := s.mem.writeBytes (s.reg .sp).toNat bs } .sp
    (s.reg .sp + BitVec.ofNat 64 bs.length)

theorem State.pushBytes_of_inBounds {s : State} {bs : List Byte} (h : s.inBounds (s.reg .sp) bs.length) :
    s.pushBytes bs = .ok (s.pushed bs) := if_pos h

theorem State.pushBytes_of_outOfBounds {s : State} {bs : List Byte}
    (h : ¬s.inBounds (s.reg .sp) bs.length) :
    s.pushBytes bs = .error (.memoryFault (s.reg .sp) bs.length) := if_neg h

theorem State.popBytes_of_inBounds {s : State} {n : Nat}
    (h : n ≤ (s.reg .sp).toNat ∧ (s.reg .sp).toNat ≤ s.params.capacity) :
    s.popBytes n = .ok (s.mem.readBytes (s.reg .sp - BitVec.ofNat 64 n).toNat n,
      s.setReg .sp (s.reg .sp - BitVec.ofNat 64 n)) := if_neg (by omega)

theorem State.popBytes_of_outOfBounds {s : State} {n : Nat}
    (h : (s.reg .sp).toNat < n ∨ s.params.capacity < (s.reg .sp).toNat) :
    s.popBytes n = .error (.memoryFault (s.reg .sp) n) := if_pos h

/-! ## What each access leaves unchanged -/

theorem State.onlyRegs_setReg (s : State) (r : Reg) (v : Word) : s.OnlyRegs (s.setReg r v) [r] := by
  have hregs : s.SameRegsExcept (s.setReg r v) [r] := fun q hq => by
    rw [State.reg_setReg, if_neg (by simpa using hq)]
  exact ⟨⟨rfl, rfl, rfl, rfl, rfl, rfl, rfl⟩, hregs, fun _ => rfl⟩

theorem State.onlyRegsAndBytes_storeValue (s : State) (addr : Word) (w : Width) (v : Word) :
    s.OnlyRegsAndBytes (s.storeValue addr w v) [] addr w :=
  ⟨⟨rfl, rfl, rfl, rfl, rfl, rfl, rfl⟩, fun _ _ => rfl, s.readByte_storeValue_of_outside addr w v⟩

@[simp] theorem State.pushed_mem (s : State) (bs : List Byte) :
    (s.pushed bs).mem = s.mem.writeBytes (s.reg .sp).toNat bs := rfl

theorem State.reg_pushed (s : State) (bs : List Byte) (q : Reg) :
    (s.pushed bs).reg q = if q = .sp then s.reg .sp + BitVec.ofNat 64 bs.length else s.reg q :=
  State.reg_setReg _ _ _ _

theorem State.sameContext_pushed (s : State) (bs : List Byte) : s.SameContext (s.pushed bs) :=
  ⟨rfl, rfl, rfl, rfl, rfl, rfl, rfl⟩

theorem State.sameRegsExcept_pushed (s : State) (bs : List Byte) : s.SameRegsExcept (s.pushed bs) [.sp] :=
  fun q hq => by rw [State.reg_pushed, if_neg (by simpa using hq)]

theorem State.sameBytesOutside_pushed (s : State) (bs : List Byte) :
    s.SameBytesOutside (s.pushed bs) (s.reg .sp).toNat bs.length :=
  fun x => Memory.readByte_writeBytes_of_outside bs s.mem _ x

/-! ## The stack pointer does not wrap -/

theorem toNat_add_ofNat_of_lt {v : Word} {n : Nat} (h : v.toNat + n < 2 ^ 64) :
    (v + BitVec.ofNat 64 n).toNat = v.toNat + n := by
  rw [BitVec.toNat_add, BitVec.toNat_ofNat, Nat.add_mod_mod, Nat.mod_eq_of_lt h]

theorem toNat_sub_ofNat_of_le {v : Word} {n : Nat} (h : n ≤ v.toNat) :
    (v - BitVec.ofNat 64 n).toNat = v.toNat - n := by
  have hn : (BitVec.ofNat 64 n).toNat = n := by
    rw [BitVec.toNat_ofNat, Nat.mod_eq_of_lt (Nat.lt_of_le_of_lt h v.isLt)]
  rw [BitVec.toNat_sub_of_le (by rwa [BitVec.le_def, hn]), hn]

/-! ## The obligations -/

/-- Settles O4: the loaded word is the value of its bytes (`State.toNat_loadValue`), and under the little-endian
order that is their weighted sum (`Memory.leValue_readBytes`). -/
theorem memReadGivesLittleEndianValue : Obligations.MemReadGivesLittleEndianValue := by
  intro s addr w ho
  refine ⟨fun hin => ⟨_, State.memRead_of_inBounds hin, ?_⟩,
    fun hout => State.memRead_of_outOfBounds (Nat.not_le.2 hout)⟩
  rw [State.toNat_loadValue, ho]
  exact Memory.leValue_readBytes s.mem addr.toNat w.bytes

/-- Settles O5: the bytes by `State.readByte_storeValue_of_little`, the rest by the frame of a store. -/
theorem memWriteStoresLittleEndianBytes : Obligations.MemWriteStoresLittleEndianBytes := by
  intro s addr w v ho
  exact ⟨fun hin => ⟨_, State.memWrite_of_inBounds v hin,
      fun k hk => s.readByte_storeValue_of_little addr w v k ho hk, s.onlyRegsAndBytes_storeValue addr w v⟩,
    fun hout => State.memWrite_of_outOfBounds v (Nat.not_le.2 hout)⟩

/-- Settles O8: the new stack pointer is at most `CAPACITY`, so it does not wrap; the bytes read back as written,
and the rest is the frame of a push. -/
theorem pushBytesWritesAtStackPointer : Obligations.PushBytesWritesAtStackPointer := by
  intro s bs hcap
  refine ⟨fun hin => ?_, fun hout => State.pushBytes_of_outOfBounds (Nat.not_le.2 hout)⟩
  have hsp : ((s.pushed bs).reg .sp).toNat = (s.reg .sp).toNat + bs.length := by
    rw [State.reg_pushed, if_pos rfl, toNat_add_ofNat_of_lt (Nat.lt_of_le_of_lt hin hcap)]
  exact ⟨s.pushed bs, State.pushBytes_of_inBounds hin, hsp, Memory.readBytes_writeBytes _ _ _,
    s.sameRegsExcept_pushed bs, s.sameBytesOutside_pushed bs, s.sameContext_pushed bs⟩

/-- Settles O9: where the pop succeeds, `n` is at most the stack pointer, so the subtraction does not wrap. -/
theorem popBytesReadsBelowStackPointer : Obligations.PopBytesReadsBelowStackPointer := by
  intro s n
  refine ⟨fun hin => ?_, State.popBytes_of_outOfBounds⟩
  have hsp := toNat_sub_ofNat_of_le hin.1
  refine ⟨_, _, State.popBytes_of_inBounds hin, ?_, ?_, s.onlyRegs_setReg .sp _⟩
  · rw [State.reg_setReg, if_pos rfl, hsp]
  · rw [hsp]

/-- Settles O10: under the little-endian order the bytes pushed are `leBytes 8`, which are the word's eight
slices. -/
theorem pushWordPushesItsEightBytes : Obligations.PushWordPushesItsEightBytes := by
  intro s v ho
  rw [State.push64, ho, ByteOrder.toBytes, leBytes_toNat_eq_map_extractLsb']

/-- Settles O7: the three accesses share one bounds rule, and in bounds the write of `MemModify` is that of
`MemWrite` at the value `MemRead` gives. -/
theorem memModifyReadsThenWritesOnce : Obligations.MemModifyReadsThenWritesOnce := by
  intro s addr w f
  exact ⟨fun hin => ⟨s.loadValue addr w, _, State.memRead_of_inBounds hin, State.memWrite_of_inBounds _ hin,
      State.memModify_of_inBounds f hin⟩,
    fun hout => State.memModify_of_outOfBounds f (Nat.not_le.2 hout)⟩

end Sys2Proof.Machine
end

section
/-! PROOFS. The execution loop (spec/40_execution_loop.md R87 and R90). -/

namespace Sys2Proof.Machine

/-! ## The step of a run -/

/-- A machine of valid parameters, in a run and with no request at its port, goes on by one instruction (R91). -/
theorem step_of_ready {s : State} (h : s.Ready) : step s = s.stepInstruction := by
  obtain ⟨hwf, hrequest, hrunning⟩ := h
  simp [step, State.cycle, hwf, hrequest, hrunning]

/-- An instruction the Decoder delivers is run (R87). -/
theorem State.stepInstruction_of_decode {s : State} {i : Instr} {c : Cursor}
    (h : decode s.params s.fetchWindow = .ok (i, c)) :
    s.stepInstruction = finishResult (exec i s.afterOpcode) := by
  rw [State.stepInstruction, h]

theorem step_of_decode {s : State} {i : Instr} {c : Cursor} (hs : s.Ready)
    (h : decode s.params s.fetchWindow = .ok (i, c)) : step s = finishResult (exec i s.afterOpcode) :=
  (step_of_ready hs).trans (State.stepInstruction_of_decode h)

/-! ## The end of a step (R90) -/

@[simp] theorem finishResult_next (u : State) : finishResult (.next u) = .next u.finish := rfl

theorem State.finish_of_running {u : State} (h : u.running = true) : u.finish = u.endInstruction := if_pos h

/-- The halt check reads the EXIT the handler left, before the volatile reset. -/
theorem State.running_endInstruction_iff {u : State} (h : u.running = true) :
    u.endInstruction.running = true ↔ u.reg .exit = 0 := by
  simp [h]

theorem State.sameRegsExcept_endInstruction (u : State) : u.SameRegsExcept u.endInstruction [.exit] :=
  fun q hq => by rw [State.reg_endInstruction, if_neg (by simpa using hq)]

/-! ## The obligation -/

/-- Settles O34: the handler left `running` true, so the step ends by `State.endInstruction`: the halt check by
`State.running_endInstruction_iff`, the volatile reset and the frame by its field lemmas. -/
theorem haltCheckThenVolatileReset : Obligations.HaltCheckThenVolatileReset := by
  intro s u i c hs hdecode hexec hrunning
  have hstep : step s = .next u.endInstruction := by
    rw [step_of_decode hs hdecode, hexec, finishResult_next, State.finish_of_running hrunning]
  have hexit : u.endInstruction.reg .exit = 0 := by rw [State.reg_endInstruction, if_pos rfl]
  exact ⟨u.endInstruction, hstep, State.running_endInstruction_iff hrunning, hexit,
    u.sameRegsExcept_endInstruction, u.endInstruction_mem, u.endInstruction_fault, u.endInstruction_params,
    u.endInstruction_verbose, u.endInstruction_ipc, u.endInstruction_request, u.endInstruction_trace⟩

end Sys2Proof.Machine
end

section
/-! PROOFS. Integer arithmetic (spec/41_arithmetic.md R100 to R104). -/

namespace Sys2Proof.Machine

/-! ## Flags of a result (10_state.md R27) -/

theorem zeroFlag_eq_ite (v : Word) : zeroFlag v = if v = 0 then 1 else 0 := by
  simp only [zeroFlag, flagWord, decide_eq_true_eq]

theorem zeroFlag_eq_ite_toNat (v : Word) : zeroFlag v = if v.toNat = 0 then 1 else 0 := by
  rw [zeroFlag_eq_ite]
  exact if_congr BitVec.toNat_inj.symm rfl rfl

/-- The sign flag in the terms of the statements: bit 8w-1 of the result as a natural number. -/
theorem signFlag_eq_ite (w : Width) (v : Word) :
    signFlag w v = if v.toNat.testBit (8 * w.bytes - 1) then 1 else 0 := rfl

theorem State.flagsOf_setFlags (s : State) (w : Width) (v : Word) : (s.setFlags w v).FlagsOf w v.toNat := by
  have hzf : (s.setFlags w v).reg .zf = zeroFlag v := by
    rw [State.reg_setFlags, if_neg (by decide), if_neg (by decide), if_pos rfl]
  have hsf : (s.setFlags w v).reg .sf = signFlag w v := by
    rw [State.reg_setFlags, if_neg (by decide), if_pos rfl]
  have hrf : (s.setFlags w v).reg .rf = 0 := by rw [State.reg_setFlags, if_pos rfl]
  exact ⟨hzf.trans (zeroFlag_eq_ite_toNat v), hsf.trans (signFlag_eq_ite w v), hrf⟩

/-! ## Writing a register that may change keeps the frame -/

theorem State.reg_setReg_of_ne {s : State} {r q : Reg} {v : Word} (h : q ≠ r) :
    (s.setReg r v).reg q = s.reg q := by
  rw [State.reg_setReg, if_neg h]

theorem State.OnlyRegs.refl (s : State) (rs : List Reg) : s.OnlyRegs s rs :=
  ⟨⟨rfl, rfl, rfl, rfl, rfl, rfl, rfl⟩, fun _ _ => rfl, fun _ => rfl⟩

theorem State.OnlyRegs.setReg {s t : State} {rs : List Reg} {r : Reg} (h : s.OnlyRegs t rs) (hr : r ∈ rs)
    (v : Word) : s.OnlyRegs (t.setReg r v) rs := by
  obtain ⟨hcontext, hregs, hbytes⟩ := h
  refine ⟨hcontext, fun q hq => ?_, hbytes⟩
  have hne : q ≠ r := fun e => hq (e ▸ hr)
  rw [State.reg_setReg_of_ne hne, hregs q hq]

theorem State.OnlyRegs.setFlags {s t : State} {rs : List Reg} (h : s.OnlyRegs t rs) (hzf : .zf ∈ rs)
    (hsf : .sf ∈ rs) (hrf : .rf ∈ rs) (w : Width) (v : Word) : s.OnlyRegs (t.setFlags w v) rs :=
  ((h.setReg hzf _).setReg hsf _).setReg hrf _

/-! ## Writing a result to A and then its flags -/

theorem State.reg_a_writeA (s : State) (v : Word) : (s.writeA v).reg .a = v := by simp [State.reg_writeA]

theorem State.reg_zf_writeA (s : State) (v : Word) : (s.writeA v).reg .zf = if v = 0 then 1 else 0 := by
  simp [State.reg_writeA, zeroFlag_eq_ite]

theorem State.reg_sf_writeA (s : State) (v : Word) :
    (s.writeA v).reg .sf = if v.toNat.testBit 63 then 1 else 0 := by
  have hsf : (s.writeA v).reg .sf = signFlag .w8 v := by simp [State.reg_writeA]
  exact hsf.trans (signFlag_eq_ite .w8 v)

theorem State.flagsOf_writeA (s : State) (v : Word) :
    (s.writeA v).FlagsOf .w8 ((s.writeA v).reg .a).toNat := by
  rw [State.reg_a_writeA]
  exact State.flagsOf_setFlags _ .w8 v

theorem State.onlyRegs_writeA (s : State) (v : Word) : s.OnlyRegs (s.writeA v) [.a, .zf, .sf, .rf] :=
  ((State.OnlyRegs.refl s _).setReg (by decide) v).setFlags (by decide) (by decide) (by decide) .w8 v

/-! ## Raising a fault before anything is written (60_exceptions.md R176) -/

theorem State.raised_raise (s : State) (k : FaultKind) : s.Raised (s.raise k) k s.ipc (s.reg .pc) :=
  ⟨rfl, rfl, rfl, fun _ _ => rfl, fun _ => rfl, rfl, rfl, rfl, rfl⟩

/-! ## What each handler answers -/

theorem exec_add (s : State) : exec .add s = .next (s.writeA (s.reg .a + s.reg .b)) := rfl

theorem exec_sub (s : State) : exec .sub s = .next (s.writeA (s.reg .a - s.reg .b)) := rfl

theorem exec_mul (s : State) : exec .mul s = .next (s.writeA (s.reg .a * s.reg .b)) := rfl

theorem exec_div_of_ne_zero {s : State} (h : s.reg .b ≠ 0) :
    exec .div s = .next ((s.writeA (s.reg .a / s.reg .b)).setReg .rf (s.reg .a % s.reg .b)) := if_neg h

theorem exec_div_of_zero {s : State} (h : s.reg .b = 0) : exec .div s = .next (s.raise .divideByZero) :=
  if_pos h

theorem exec_mod_of_ne_zero {s : State} (h : s.reg .b ≠ 0) :
    exec .mod s = .next (s.writeA (s.reg .a % s.reg .b)) := if_neg h

theorem exec_mod_of_zero {s : State} (h : s.reg .b = 0) : exec .mod s = .next (s.raise .divideByZero) :=
  if_pos h

/-- The difference of two words is the integer difference reduced into [0, 2^64), a borrow included (R101). -/
theorem toNat_sub_eq_emod (u v : Word) : ((u - v).toNat : Int) = (u.toNat - v.toNat : Int) % 2 ^ 64 := by
  have hv := v.isLt
  rw [BitVec.toNat_sub]
  omega

/-! ## The obligations -/

/-- Settles O15: `State.writeA` leaves the quotient in A with its ZF and SF, and the later write of the remainder
to RF keeps all three; a zero divisor raises before anything is written. -/
theorem divWritesQuotientAndRemainder : Obligations.DivWritesQuotientAndRemainder := by
  refine ⟨rfl, fun s hb => ?_, fun s hb => ⟨_, exec_div_of_zero hb, s.raised_raise _, rfl⟩⟩
  refine ⟨_, exec_div_of_ne_zero hb, ?quotient, ?remainder, ?zero, ?sign,
    (s.onlyRegs_writeA _).setReg (by decide) _⟩
  case quotient => rw [State.reg_setReg_of_ne (by decide), State.reg_a_writeA, BitVec.toNat_udiv]
  case remainder => rw [State.reg_setReg, if_pos rfl, BitVec.toNat_umod]
  case zero =>
    rw [State.reg_setReg_of_ne (by decide), State.reg_setReg_of_ne (by decide), State.reg_a_writeA,
      State.reg_zf_writeA]
  case sign =>
    rw [State.reg_setReg_of_ne (by decide), State.reg_setReg_of_ne (by decide), State.reg_a_writeA,
      State.reg_sf_writeA]

/-- Settles O16: the remainder goes through `State.writeA`, which clears RF; a zero divisor raises before anything
is written. -/
theorem modWritesRemainderAndFlags : Obligations.ModWritesRemainderAndFlags := by
  refine ⟨rfl, fun s hb => ?_, fun s hb => ⟨_, exec_mod_of_zero hb, s.raised_raise _, rfl⟩⟩
  refine ⟨_, exec_mod_of_ne_zero hb, ?_, s.flagsOf_writeA _, s.onlyRegs_writeA _⟩
  rw [State.reg_a_writeA, BitVec.toNat_umod]

/-- Settles O12: the sum of two words is the sum mod 2^64, and `State.writeA` gives the flags and the frame. -/
theorem addWritesSumAndFlags : Obligations.AddWritesSumAndFlags := by
  refine ⟨rfl, fun s => ⟨_, exec_add s, ?_, s.flagsOf_writeA _, s.onlyRegs_writeA _⟩⟩
  rw [State.reg_a_writeA, BitVec.toNat_add]

/-- Settles O13: the value by `toNat_sub_eq_emod`; `State.writeA` gives the flags and the frame. -/
theorem subWritesDifferenceAndFlags : Obligations.SubWritesDifferenceAndFlags := by
  refine ⟨rfl, fun s => ⟨_, exec_sub s, ?_, s.flagsOf_writeA _, s.onlyRegs_writeA _⟩⟩
  rw [State.reg_a_writeA, toNat_sub_eq_emod]

/-- Settles O14: the product of two words is the product mod 2^64; `State.writeA` gives the flags and the frame. -/
theorem mulWritesLowProductAndFlags : Obligations.MulWritesLowProductAndFlags := by
  refine ⟨rfl, fun s => ⟨_, exec_mul s, ?_, s.flagsOf_writeA _, s.onlyRegs_writeA _⟩⟩
  rw [State.reg_a_writeA, BitVec.toNat_mul]

end Sys2Proof.Machine
end

section
/-! PROOFS. NOP and EXIT (spec/44_control.md R160 and R161). -/

namespace Sys2Proof.Machine

/-! ## What each handler answers -/

theorem exec_nop (s : State) : exec .nop s = .next s := rfl

theorem exec_exit (s : State) : exec .exit s = .next (s.setReg .exit 1) := rfl

/-! ## A halt request through the end of the step -/

theorem State.SameRegsExcept.trans {s t u : State} {rs : List Reg} (hst : s.SameRegsExcept t rs)
    (htu : t.SameRegsExcept u rs) : s.SameRegsExcept u rs :=
  fun q hq => (htu q hq).trans (hst q hq)

/-- The halt check stops the run where the handler left a nonzero EXIT (R90). -/
theorem State.running_endInstruction_of_exit_ne_zero {t : State} (h : t.reg .exit ≠ 0) :
    t.endInstruction.running = false := by
  rw [State.endInstruction_running, decide_eq_false h, Bool.and_false]

/-! ## The obligations -/

/-- Settles O28: the handler of NOP answers the state it is given. -/
theorem nopChangesNothing : Obligations.NopChangesNothing :=
  ⟨rfl, exec_nop⟩

/-- Settles O29: the handler keeps `running` and leaves EXIT at 1, so the step ends by `State.endInstruction`, whose
halt check stops the run; the handler and the end of the step both change no register but EXIT. -/
theorem exitRequestsHalt : Obligations.ExitRequestsHalt := by
  refine ⟨rfl, fun s => ?_⟩
  have hexit : (s.setReg .exit 1).reg .exit = 1 := by rw [State.reg_setReg, if_pos rfl]
  obtain ⟨hcontext, hregs, hbytes⟩ := s.onlyRegs_setReg .exit 1
  refine ⟨s.setReg .exit 1, exec_exit s, hexit, ⟨hcontext, hregs, hbytes⟩, fun hrunning => ?_⟩
  have hfinish : finishResult (exec .exit s) = .next (s.setReg .exit 1).endInstruction := by
    rw [exec_exit, finishResult_next, State.finish_of_running (u := s.setReg .exit 1) hrunning]
  have hhalt : (s.setReg .exit 1).endInstruction.running = false :=
    State.running_endInstruction_of_exit_ne_zero (by rw [hexit]; decide)
  have hclear : (s.setReg .exit 1).endInstruction.reg .exit = 0 := by
    rw [State.reg_endInstruction, if_pos rfl]
  exact ⟨_, hfinish, hhalt, hclear, hregs.trans (State.sameRegsExcept_endInstruction _), hbytes,
    State.endInstruction_fault _⟩

end Sys2Proof.Machine
end

section
/-! PROOFS. Exceptions (spec/60_exceptions.md R172 to R177): a division by zero, an unmapped opcode and a bad operand
byte. -/

namespace Sys2Proof

/-! ## Bytes outside the maps -/

theorem RegIdMap.toNat_byteOf_default_lt (r : Reg) : (RegIdMap.default.byteOf r).toNat < 8 := by
  cases r <;> decide

theorem OpcodeMap.toNat_byteOf_default_lt (h : Opcode) : (OpcodeMap.default.byteOf h).toNat < 0x12 := by
  cases h <;> decide

/-- A byte of 8 or more names no register under the default identifiers (10_state.md R21). -/
theorem RegIdMap.regOf_default_eq_none {b : Byte} (hb : 8 ≤ b.toNat) : RegIdMap.default.regOf b = none := by
  refine List.find?_eq_none.2 fun r _ hr => ?_
  have hlt := RegIdMap.toNat_byteOf_default_lt r
  rw [beq_iff_eq.1 hr] at hlt
  omega

/-- A byte of 0x12 or more is unmapped under the default opcode map (30_encoding.md R62). -/
theorem OpcodeMap.dispatch_default_eq_none {b : Byte} (hb : 0x12 ≤ b.toNat) :
    OpcodeMap.default.dispatch b = none := by
  refine List.find?_eq_none.2 fun h _ hh => ?_
  have hlt := OpcodeMap.toNat_byteOf_default_lt h
  rw [beq_iff_eq.1 hh] at hlt
  omega

/-- A byte other than the four widths names no width (30_encoding.md R66). -/
theorem Width.ofByte_eq_none {b : Byte} (hb : b.toNat ∉ [1, 2, 4, 8]) : Width.ofByte b = none := by
  cases hw : Width.ofByte b with
  | none => rfl
  | some w =>
    have hmem : w.toByte.toNat ∈ [1, 2, 4, 8] := by cases w <;> decide
    rw [Width.toByte_of_ofByte b w hw] at hmem
    exact absurd hmem hb

/-! ## The Decoder's primitives on a byte of the encoder -/

theorem decodeReg_byteOf {p : Params} (hids : p.regIds.bytes.Nodup) (n : Nat) (r : Reg) (rest : List Byte) :
    decodeReg p ⟨n, p.regIds.byteOf r :: rest⟩ = .ok (r, ⟨n + 1, rest⟩) :=
  (decodeReg_eq_ok _ _ _ _).2 ⟨_, rfl, rfl, p.regIds.regOf_byteOf hids r⟩

theorem decodeDestReg_byteOf {p : Params} (hids : p.regIds.bytes.Nodup) {rd : Reg}
    (hrd : ¬(rd = .pc ∧ p.pcWritePolicy = .fault)) (n : Nat) (rest : List Byte) :
    decodeDestReg p ⟨n, p.regIds.byteOf rd :: rest⟩ = .ok (rd, ⟨n + 1, rest⟩) :=
  (decodeDestReg_eq_ok _ _ _ _).2 ⟨decodeReg_byteOf hids n rd rest, hrd⟩

theorem decodeWidth_toByte (n : Nat) (w : Width) (rest : List Byte) :
    decodeWidth ⟨n, w.toByte :: rest⟩ = .ok (w, ⟨n + 1, rest⟩) :=
  (decodeWidth_eq_ok _ _ _).2 ⟨rfl, rfl⟩

/-! ## The Decoder's primitives on a bad byte -/

theorem decodeReg_of_regOf_eq_none {p : Params} {b : Byte} (hb : p.regIds.regOf b = none) (n : Nat)
    (rest : List Byte) :
    decodeReg p ⟨n, b :: rest⟩ = .error { error := .invalidRegister b, consumed := n + 1 } := by
  simp [decodeReg, fetchByte, bind, Except.bind, hb]

theorem decodeDestReg_of_decodeReg_error {p : Params} {c : Cursor} {r : Reject}
    (h : decodeReg p c = .error r) : decodeDestReg p c = .error r := by
  simp [decodeDestReg, bind, Except.bind, h]

/-- PROGRAM_COUNTER as destination under the policy `fault` (40_execution_loop.md R83). -/
theorem decodeDestReg_byteOf_pc {p : Params} (hids : p.regIds.bytes.Nodup) (hpolicy : p.pcWritePolicy = .fault)
    (n : Nat) (rest : List Byte) :
    decodeDestReg p ⟨n, p.regIds.byteOf .pc :: rest⟩ =
      .error { error := .programCounterWrite (p.regIds.byteOf .pc), consumed := n + 1 } := by
  simp [decodeDestReg, bind, Except.bind, decodeReg_byteOf hids, hpolicy]

theorem decodeWidth_of_ofByte_eq_none {b : Byte} (hb : Width.ofByte b = none) (n : Nat) (rest : List Byte) :
    decodeWidth ⟨n, b :: rest⟩ = .error { error := .invalidOperandSize b, consumed := n + 1 } := by
  simp [decodeWidth, fetchByte, bind, Except.bind, hb]

/-! ## A rejected operand rejects the instruction -/

/-- The Decoder's primitive for the operand `f` stops at the position `c` with the rejection `r`. -/
def OperandField.RejectsAt (p : Params) (c : Cursor) (r : Reject) : OperandField → Prop
  | .reg => decodeReg p c = .error r
  | .dest => decodeDestReg p c = .error r
  | .width => decodeWidth c = .error r
  | .value n => fetchBytes p.byteOrder n c = .error r

/-- No operand is the opcode byte, and the three bytes after that one hold the start of every operand
(30_encoding.md R63). -/
theorem Instr.operandFields_offset (i : Instr) : ∀ x ∈ i.operandFields, 1 ≤ x.1 ∧ x.1 ≤ 3 := by
  cases i <;> simp [Instr.operandFields]

theorem bind_eq_of_error {α β : Type} {x : Except Reject α} {next : α → Except Reject β} {r : Reject}
    (hx : x = .error r) : (x >>= next) = .error r := by
  rw [hx]; rfl

theorem bind_eq_of_ok {α β : Type} {x : Except Reject α} {next : α → Except Reject β} {a : α}
    {y : Except Reject β} (hx : x = .ok a) (hnext : next a = y) : (x >>= next) = y := by
  rw [hx]; exact hnext

/-- The operands before the rejected one are read back, so the Decoder reaches it and stops there. -/
theorem decodeOperands_of_rejectsAt {p : Params} {i : Instr} {k : Nat} {f : OperandField} {rest : List Byte}
    {r : Reject} (hids : p.regIds.bytes.Nodup) (hdest : ¬(i.dest = some .pc ∧ p.pcWritePolicy = .fault))
    (hf : (k, f) ∈ i.operandFields) (hr : f.RejectsAt p ⟨k, rest⟩ r) :
    decodeOperands p i.opcode ⟨1, (encodeOperands p i).take (k - 1) ++ rest⟩ = .error r := by
  have hrd {rd : Reg} (h : i.dest = some rd) := decodeDestReg_byteOf hids fun hpc => hdest ⟨hpc.1 ▸ h, hpc.2⟩
  cases i <;> simp only [Instr.operandFields, List.mem_cons, List.not_mem_nil, or_false, Prod.mk.injEq] at hf
  case incReg rd | decReg rd =>
    obtain ⟨rfl, rfl⟩ := hf
    exact bind_eq_of_error hr
  case incAddrInReg w _ | incAddrLiteral w _ | decAddrInReg w _ | decAddrLiteral w _ =>
    obtain ⟨rfl, rfl⟩ | ⟨rfl, rfl⟩ := hf
    · exact bind_eq_of_error hr
    · exact bind_eq_of_ok (decodeWidth_toByte 1 w rest) (bind_eq_of_error hr)
  case moveRegReg rd rs =>
    obtain ⟨rfl, rfl⟩ | ⟨rfl, rfl⟩ := hf
    · exact bind_eq_of_error hr
    · exact bind_eq_of_ok (hrd rfl 1 rest) (bind_eq_of_error hr)
  case moveRegConst rd w _ | moveRegAddrInReg rd w _ | moveRegAddrLiteral rd w _ =>
    obtain ⟨rfl, rfl⟩ | ⟨rfl, rfl⟩ | ⟨rfl, rfl⟩ := hf
    · exact bind_eq_of_error hr
    · exact bind_eq_of_ok (hrd rfl 1 rest) (bind_eq_of_error hr)
    · exact bind_eq_of_ok (hrd rfl 1 (w.toByte :: rest))
        (bind_eq_of_ok (decodeWidth_toByte 2 w rest) (bind_eq_of_error hr))
  case moveAddrInRegReg ra w rs =>
    obtain ⟨rfl, rfl⟩ | ⟨rfl, rfl⟩ | ⟨rfl, rfl⟩ := hf
    · exact bind_eq_of_error hr
    · exact bind_eq_of_ok (decodeReg_byteOf hids 1 ra rest) (bind_eq_of_error hr)
    · exact bind_eq_of_ok (decodeReg_byteOf hids 1 ra (w.toByte :: rest))
        (bind_eq_of_ok (decodeWidth_toByte 2 w rest) (bind_eq_of_error hr))

/-- A well-formed instruction cut before one of its operands, where the operand itself is rejected. -/
theorem decode_of_rejectsAt {p : Params} {i : Instr} {k : Nat} {f : OperandField} {rest : List Byte}
    {r : Reject} (hp : p.wf = true) (hi : i.wf p = true) (hf : (k, f) ∈ i.operandFields)
    (hr : f.RejectsAt p ⟨k, rest⟩ r) : decode p ((encode p i).take k ++ rest) = .error r := by
  obtain ⟨k, rfl⟩ : ∃ n, k = n + 1 := Nat.exists_eq_add_of_le' (i.operandFields_offset _ hf).1
  have hoperands := decodeOperands_of_rejectsAt (p.regIds_nodup_of_wf hp) ((Instr.wf_iff p i).1 hi).2 hf hr
  rw [Nat.add_sub_cancel] at hoperands
  have hopcode := p.opcodes.dispatch_byteOf (p.opcodes_nodup_of_wf hp) i.opcode
  simpa [decode, encode, fetchByte, bind, Except.bind, hopcode] using hoperands

theorem decode_of_dispatch_eq_none {p : Params} {op : Byte} (h : p.opcodes.dispatch op = none) (rest : List Byte) :
    decode p (op :: rest) = .error { error := .unknownOpcode op, consumed := 0 } := by
  simp [decode, fetchByte, bind, Except.bind, h]

end Sys2Proof

namespace Sys2Proof.Machine

/-! ## The bytes the Decoder sees -/

theorem Memory.readBytes_add (m : Memory) (x n k : Nat) :
    m.readBytes x (n + k) = m.readBytes x n ++ m.readBytes (x + n) k := by
  induction n generalizing x with
  | zero => simp [Memory.readBytes]
  | succ n ih =>
    rw [show n + 1 + k = n + k + 1 by omega, Memory.readBytes, Memory.readBytes, ih,
      show x + 1 + n = x + (n + 1) by omega, List.cons_append]

/-- The window shows byte `k` from PROGRAM_COUNTER on, if it lies in memory and within the longest instruction. -/
theorem State.fetchWindow_eq_append {s : State} {k : Nat} (hk : k < maxLength)
    (hcap : (s.reg .pc).toNat + k < s.params.capacity) :
    ∃ rest, s.fetchWindow =
      s.mem.readBytes (s.reg .pc).toNat k ++ s.mem.readByte ((s.reg .pc).toNat + k) :: rest := by
  obtain ⟨n, hn⟩ : ∃ n, min maxLength (s.params.capacity - (s.reg .pc).toNat) = k + (n + 1) :=
    Nat.exists_eq_add_of_lt (by omega)
  exact ⟨_, by rw [State.fetchWindow, hn, Memory.readBytes_add, Memory.readBytes]⟩

/-! ## The fault of a decode that stopped (R171 to R177) -/

@[simp] theorem State.fetchOpcode_params (s : State) : s.fetchOpcode.params = s.params := by
  unfold State.fetchOpcode; split <;> simp

@[simp] theorem State.fetchOpcode_mem (s : State) : s.fetchOpcode.mem = s.mem := by
  unfold State.fetchOpcode; split <;> simp

@[simp] theorem State.fetchOpcode_verbose (s : State) : s.fetchOpcode.verbose = s.verbose := by
  unfold State.fetchOpcode; split <;> simp

@[simp] theorem State.fetchOpcode_ipc (s : State) : s.fetchOpcode.ipc = s.reg .pc := by
  unfold State.fetchOpcode; split <;> simp

@[simp] theorem State.fetchOpcode_request (s : State) : s.fetchOpcode.request = s.request := by
  unfold State.fetchOpcode; split <;> simp

theorem State.sameRegsExcept_fetchOpcode (s : State) : s.SameRegsExcept s.fetchOpcode [.pc] := by
  intro q hq
  have hne : q ≠ .pc := by simpa using hq
  obtain ⟨_, h⟩ | ⟨_, h⟩ := s.fetchOpcode_cases
  · rw [h, State.reg_afterOpcode, if_neg hne]
  · rw [h, State.reg_recordIpc]

@[simp] theorem State.raiseDecode_mem (s : State) (r : Reject) : (s.raiseDecode r).mem = s.mem :=
  s.fetchOpcode_mem

theorem State.raised_raiseDecode (s : State) (r : Reject) :
    s.Raised (s.raiseDecode r) (decodeFault r.error (s.reg .pc + BitVec.ofNat 64 r.consumed)) (s.reg .pc)
      (s.reg .pc + BitVec.ofNat 64 r.consumed) := by
  have hregs : s.SameRegsExcept (s.raiseDecode r) [.pc] :=
    s.sameRegsExcept_fetchOpcode.trans fun q hq => State.reg_setReg_of_ne (by simpa using hq)
  refine ⟨?record, rfl, ?pc, hregs, fun x => ?byte, ?params, ?verbose, ?ipc, ?request⟩
  case byte => rw [State.raiseDecode_mem]
  all_goals simp [State.raiseDecode]

/-- The step of a run whose decode stops (40_execution_loop.md R87). -/
theorem step_of_decode_error {s : State} {r : Reject} (hs : s.Ready)
    (h : decode s.params s.fetchWindow = .error r) : step s = .next (s.raiseDecode r) := by
  rw [step_of_ready hs, State.stepInstruction, h]

/-- Where the bytes before an operand are those of a well-formed instruction and the operand's own byte is rejected
at once, whatever follows it, the step raises the fault of the reason, with PROGRAM_COUNTER just past that byte. -/
theorem raises_of_rejectsAt {s : State} {i : Instr} {k : Nat} {f : OperandField} {e : DecodeError} (hs : s.Ready)
    (hi : i.wf s.params = true) (hf : (k, f) ∈ i.operandFields)
    (hcap : (s.reg .pc).toNat + k < s.params.capacity)
    (hbytes : s.mem.readBytes (s.reg .pc).toNat k = (encode s.params i).take k)
    (hr : ∀ rest, f.RejectsAt s.params ⟨k, s.mem.readByte ((s.reg .pc).toNat + k) :: rest⟩ ⟨e, k + 1⟩) :
    ∃ t, step s = .next t ∧
      s.Raised t (decodeFault e (s.reg .pc + BitVec.ofNat 64 (k + 1))) (s.reg .pc)
        (s.reg .pc + BitVec.ofNat 64 (k + 1)) := by
  have hk : k < maxLength := Nat.lt_of_le_of_lt (i.operandFields_offset _ hf).2 (by decide)
  obtain ⟨rest, hwindow⟩ := State.fetchWindow_eq_append hk hcap
  have hdecode : decode s.params s.fetchWindow = .error ⟨e, k + 1⟩ := by
    rw [hwindow, hbytes]
    exact decode_of_rejectsAt hs.1 hi hf (hr rest)
  exact ⟨_, step_of_decode_error hs hdecode, s.raised_raiseDecode _⟩

/-! ## The obligations -/

/-- Settles O17: both handlers test the divisor first, and a raise writes nothing but the record and `running`. -/
theorem divideByZeroRaises : Obligations.DivideByZeroRaises := by
  rintro i s (rfl | rfl) hb
  · exact ⟨_, exec_div_of_zero hb, s.raised_raise _, rfl⟩
  · exact ⟨_, exec_mod_of_zero hb, s.raised_raise _, rfl⟩

/-- Settles O38: the Decoder stops at the opcode byte with no byte consumed, so PROGRAM_COUNTER too is as before. -/
theorem unknownOpcodeLeavesStateUntouched : Obligations.UnknownOpcodeLeavesStateUntouched := by
  intro s hs hopcodes hcap hop
  obtain ⟨rest, hwindow⟩ := State.fetchWindow_eq_append (s := s) (k := 0) (by decide) hcap
  have hdecode : decode s.params s.fetchWindow =
      .error ⟨.unknownOpcode (s.mem.readByte (s.reg .pc).toNat), 0⟩ := by
    rw [hwindow]
    exact decode_of_dispatch_eq_none (hopcodes ▸ OpcodeMap.dispatch_default_eq_none hop) rest
  have hraised := s.raised_raiseDecode ⟨.unknownOpcode (s.mem.readByte (s.reg .pc).toNat), 0⟩
  rw [show s.reg .pc + BitVec.ofNat 64 0 = s.reg .pc from BitVec.add_zero _] at hraised
  refine ⟨_, step_of_decode_error hs hdecode, hraised, fun q => ?_, s.raiseDecode_mem _⟩
  obtain ⟨_, _, hpc, hregs, _⟩ := hraised
  by_cases hq : q = .pc
  · rw [hq, hpc]
  · exact hregs q (by simpa using hq)

/-- Settles O36: each clause is the case of `raises_of_rejectsAt` whose primitive stops at the bad byte. -/
theorem rejectedOperandByteRaises : Obligations.RejectedOperandByteRaises := by
  rintro s i k f _ hs hi hf hcap hbytes rfl
  refine ⟨fun hwidth hb => ?width, fun hreg hdefault hb => ?register, fun hdest hpolicy hb => ?destination⟩
  case width =>
    subst hwidth
    exact raises_of_rejectsAt (e := .invalidOperandSize _) hs hi hf hcap hbytes
      (decodeWidth_of_ofByte_eq_none (Width.ofByte_eq_none hb) k)
  case register =>
    have hnone := decodeReg_of_regOf_eq_none (hdefault ▸ RegIdMap.regOf_default_eq_none hb) k
    refine raises_of_rejectsAt (e := .invalidRegister _) hs hi hf hcap hbytes fun rest => ?_
    obtain rfl | rfl := hreg
    · exact hnone rest
    · exact decodeDestReg_of_decodeReg_error (hnone rest)
  case destination =>
    subst hdest
    refine raises_of_rejectsAt (e := .programCounterWrite _) hs hi hf hcap hbytes fun rest => ?_
    rw [hb]
    exact decodeDestReg_byteOf_pc (s.params.regIds_nodup_of_wf hs.1) hpolicy k rest

end Sys2Proof.Machine
end

section
/-! PROOFS. The encoding (spec/30_encoding.md sections 1 to 5 and 7; 40_execution_loop.md R82 to R84): the Decoder's
primitives, and that decoding and encoding undo each other. -/

namespace Sys2Proof

/-! ## A Decoder primitive where no byte is left -/

theorem fetchByte_of_nil (n : Nat) : fetchByte ⟨n, []⟩ = .error { error := .endOfMemory 1, consumed := n } := rfl

theorem decodeReg_of_nil (p : Params) (n : Nat) :
    decodeReg p ⟨n, []⟩ = .error { error := .endOfMemory 1, consumed := n } :=
  bind_eq_of_error (fetchByte_of_nil n)

theorem decodeWidth_of_nil (n : Nat) :
    decodeWidth ⟨n, []⟩ = .error { error := .endOfMemory 1, consumed := n } :=
  bind_eq_of_error (fetchByte_of_nil n)

/-! ## Decoding what the encoder wrote -/

theorem fetchBytes_toBytes (o : ByteOrder) {k : Nat} {v : Word} (hv : v.toNat < 2 ^ (8 * k)) (n : Nat)
    (rest : List Byte) : fetchBytes o k ⟨n, o.toBytes k v.toNat ++ rest⟩ = .ok (v, ⟨n + k, rest⟩) :=
  (fetchBytes_eq_ok _ _ _ _ _).2 ⟨_, o.length_toBytes k v.toNat, rfl, rfl, (o.word_toBytes k v hv).symm⟩

theorem decodeAddrLiteral_toBytes (p : Params) (addr : Word) (n : Nat) (rest : List Byte) :
    decodeAddrLiteral p ⟨n, p.byteOrder.toBytes 8 addr.toNat ++ rest⟩ = .ok (addr, ⟨n + 8, rest⟩) :=
  fetchBytes_toBytes p.byteOrder addr.isLt n rest

/-- Each operand byte is read back by the primitive the format names for it (30_encoding.md R63). -/
theorem decodeOperands_encodeOperands {p : Params} (hids : p.regIds.bytes.Nodup) {i : Instr}
    (hi : i.wf p = true) (rest : List Byte) :
    decodeOperands p i.opcode ⟨1, encodeOperands p i ++ rest⟩ = .ok (i, ⟨i.length, rest⟩) := by
  obtain ⟨himm, hdest⟩ := (Instr.wf_iff p i).1 hi
  have hrd {rd : Reg} (h : i.dest = some rd) := decodeDestReg_byteOf hids fun hpc => hdest ⟨hpc.1 ▸ h, hpc.2⟩
  cases i with
  | add | sub | mul | div | mod | nop | exit => rfl
  | incReg r | decReg r => exact bind_eq_of_ok (hrd rfl 1 rest) rfl
  | incAddrInReg w ra | decAddrInReg w ra =>
    exact bind_eq_of_ok (decodeWidth_toByte 1 w _) (bind_eq_of_ok (decodeReg_byteOf hids 2 ra rest) rfl)
  | incAddrLiteral w addr | decAddrLiteral w addr =>
    exact bind_eq_of_ok (decodeWidth_toByte 1 w _) (bind_eq_of_ok (decodeAddrLiteral_toBytes p addr 2 rest) rfl)
  | moveRegReg rd rs =>
    exact bind_eq_of_ok (hrd rfl 1 _) (bind_eq_of_ok (decodeReg_byteOf hids 2 rs rest) rfl)
  | moveRegConst rd w imm =>
    exact bind_eq_of_ok (hrd rfl 1 _) (bind_eq_of_ok (decodeWidth_toByte 2 w _)
      (bind_eq_of_ok (fetchBytes_toBytes p.byteOrder (of_decide_eq_true himm) 3 rest) rfl))
  | moveRegAddrInReg rd w ra =>
    exact bind_eq_of_ok (hrd rfl 1 _) (bind_eq_of_ok (decodeWidth_toByte 2 w _)
      (bind_eq_of_ok (decodeReg_byteOf hids 3 ra rest) rfl))
  | moveRegAddrLiteral rd w addr =>
    exact bind_eq_of_ok (hrd rfl 1 _) (bind_eq_of_ok (decodeWidth_toByte 2 w _)
      (bind_eq_of_ok (decodeAddrLiteral_toBytes p addr 3 rest) rfl))
  | moveAddrInRegReg ra w rs =>
    exact bind_eq_of_ok (decodeReg_byteOf hids 1 ra _) (bind_eq_of_ok (decodeWidth_toByte 2 w _)
      (bind_eq_of_ok (decodeReg_byteOf hids 3 rs rest) rfl))

theorem decode_encode {p : Params} {i : Instr} (hp : p.wf = true) (hi : i.wf p = true) (rest : List Byte) :
    decode p (encode p i ++ rest) = .ok (i, ⟨i.length, rest⟩) := by
  have hopcode := p.opcodes.dispatch_byteOf (p.opcodes_nodup_of_wf hp) i.opcode
  have hoperands := decodeOperands_encodeOperands (p.regIds_nodup_of_wf hp) hi rest
  simpa [decode, encode, fetchByte, bind, Except.bind, hopcode] using hoperands

/-! ## Encoding what the Decoder delivered -/

/-- From `c` to `c'` the Decoder consumed exactly the bytes `bs`. -/
def Cursor.Consumes (c : Cursor) (bs : List Byte) (c' : Cursor) : Prop :=
  c.rest = bs ++ c'.rest ∧ c'.pos = c.pos + bs.length

theorem Cursor.Consumes.nil (c : Cursor) : c.Consumes [] c := ⟨rfl, rfl⟩

theorem Cursor.Consumes.append {c c₁ c₂ : Cursor} {bs bs' : List Byte} (h : c.Consumes bs c₁)
    (h' : c₁.Consumes bs' c₂) : c.Consumes (bs ++ bs') c₂ := by
  obtain ⟨hrest, hpos⟩ := h
  obtain ⟨hrest', hpos'⟩ := h'
  exact ⟨by rw [hrest, hrest', List.append_assoc], by rw [hpos', hpos, List.length_append, Nat.add_assoc]⟩

theorem Cursor.Consumes.cons {c c₁ c₂ : Cursor} {b : Byte} {bs : List Byte} (h : c.Consumes [b] c₁)
    (h' : c₁.Consumes bs c₂) : c.Consumes (b :: bs) c₂ := h.append h'

theorem consumes_of_fetchByte {c c' : Cursor} {b : Byte} (h : fetchByte c = .ok (b, c')) :
    c.Consumes [b] c' := (fetchByte_eq_ok _ _ _).1 h

theorem consumes_of_decodeReg {p : Params} {c c' : Cursor} {r : Reg} (h : decodeReg p c = .ok (r, c')) :
    c.Consumes [p.regIds.byteOf r] c' := by
  obtain ⟨b, hrest, hpos, hb⟩ := (decodeReg_eq_ok _ _ _ _).1 h
  rw [p.regIds.byteOf_of_regOf b r hb]
  exact ⟨hrest, hpos⟩

theorem consumes_of_decodeDestReg {p : Params} {c c' : Cursor} {r : Reg} (h : decodeDestReg p c = .ok (r, c')) :
    c.Consumes [p.regIds.byteOf r] c' :=
  consumes_of_decodeReg ((decodeDestReg_eq_ok _ _ _ _).1 h).1

theorem consumes_of_decodeWidth {c c' : Cursor} {w : Width} (h : decodeWidth c = .ok (w, c')) :
    c.Consumes [w.toByte] c' := (decodeWidth_eq_ok _ _ _).1 h

/-- A fetched value fits its bytes, and they are the bytes of the value. -/
theorem consumes_of_fetchBytes {o : ByteOrder} {n : Nat} {c c' : Cursor} {v : Word} (hn : n ≤ 8)
    (h : fetchBytes o n c = .ok (v, c')) : v.toNat < 2 ^ (8 * n) ∧ c.Consumes (o.toBytes n v.toNat) c' := by
  obtain ⟨bs, rfl, hrest, hpos, rfl⟩ := (fetchBytes_eq_ok _ _ _ _ _).1 h
  refine ⟨by rw [o.toNat_word bs hn]; exact o.value_lt bs, ?_⟩
  rw [o.toBytes_word bs hn]
  exact ⟨hrest, hpos⟩

theorem consumes_of_decodeAddrLiteral {p : Params} {c c' : Cursor} {addr : Word}
    (h : decodeAddrLiteral p c = .ok (addr, c')) : c.Consumes (p.byteOrder.toBytes 8 addr.toNat) c' :=
  (consumes_of_fetchBytes (Nat.le_refl 8) h).2

theorem exists_of_bind_eq_ok {α β : Type} {x : Except Reject α} {next : α → Except Reject β} {b : β}
    (h : (x >>= next) = .ok b) : ∃ a, x = .ok a ∧ next a = .ok b := by
  cases x with
  | error r => cases h
  | ok a => exact ⟨a, rfl, h⟩

/-- What the Decoder delivers once the handler is known, with the bytes it consumed. -/
def DeliversFrom (p : Params) (h : Opcode) (c : Cursor) (i : Instr) (c' : Cursor) : Prop :=
  i.opcode = h ∧ i.wf p = true ∧ c.Consumes (encodeOperands p i) c'

theorem deliversFrom_of_no_dest {p : Params} {c c' : Cursor} {i : Instr} (himm : i.immFits = true)
    (hdest : i.dest = none) (hc : c.Consumes (encodeOperands p i) c') : DeliversFrom p i.opcode c i c' :=
  ⟨rfl, (Instr.wf_iff p i).2 ⟨himm, fun h => by rw [hdest] at h; cases h.1⟩, hc⟩

theorem deliversFrom_of_dest {p : Params} {c c₁ c' : Cursor} {i : Instr} {rd : Reg} {bs : List Byte}
    (himm : i.immFits = true) (hdest : i.dest = some rd) (hrd : decodeDestReg p c = .ok (rd, c₁))
    (hi : encodeOperands p i = p.regIds.byteOf rd :: bs) (hc : c₁.Consumes bs c') :
    DeliversFrom p i.opcode c i c' := by
  have hpolicy := ((decodeDestReg_eq_ok _ _ _ _).1 hrd).2
  refine ⟨rfl, (Instr.wf_iff p i).2 ⟨himm, fun h => hpolicy ⟨?_, h.2⟩⟩, hi ▸ (consumes_of_decodeDestReg hrd).cons hc⟩
  exact Option.some.inj (hdest.symm.trans h.1)

/-- The operand bytes the Decoder consumed are those of the instruction it delivers, in each format. -/
theorem deliversFrom_of_decodeOperands {p : Params} {h : Opcode} {c c' : Cursor} {i : Instr}
    (hd : decodeOperands p h c = .ok (i, c')) : DeliversFrom p h c i c' := by
  cases h with
  | add | sub | mul | div | mod | nop | exit =>
    cases hd
    exact deliversFrom_of_no_dest rfl rfl (.nil c)
  | incReg | decReg =>
    obtain ⟨⟨r, c₁⟩, hr, hd⟩ := exists_of_bind_eq_ok hd
    cases hd
    exact deliversFrom_of_dest rfl rfl hr rfl (.nil _)
  | incAddrInReg | decAddrInReg =>
    obtain ⟨⟨w, c₁⟩, hw, hd⟩ := exists_of_bind_eq_ok hd
    obtain ⟨⟨ra, c₂⟩, hra, hd⟩ := exists_of_bind_eq_ok hd
    cases hd
    exact deliversFrom_of_no_dest rfl rfl ((consumes_of_decodeWidth hw).cons (consumes_of_decodeReg hra))
  | incAddrLiteral | decAddrLiteral =>
    obtain ⟨⟨w, c₁⟩, hw, hd⟩ := exists_of_bind_eq_ok hd
    obtain ⟨⟨addr, c₂⟩, haddr, hd⟩ := exists_of_bind_eq_ok hd
    cases hd
    exact deliversFrom_of_no_dest rfl rfl
      ((consumes_of_decodeWidth hw).cons (consumes_of_decodeAddrLiteral haddr))
  | moveRegReg =>
    obtain ⟨⟨rd, c₁⟩, hrd, hd⟩ := exists_of_bind_eq_ok hd
    obtain ⟨⟨rs, c₂⟩, hrs, hd⟩ := exists_of_bind_eq_ok hd
    cases hd
    exact deliversFrom_of_dest rfl rfl hrd rfl (consumes_of_decodeReg hrs)
  | moveRegConst =>
    obtain ⟨⟨rd, c₁⟩, hrd, hd⟩ := exists_of_bind_eq_ok hd
    obtain ⟨⟨w, c₂⟩, hw, hd⟩ := exists_of_bind_eq_ok hd
    obtain ⟨⟨imm, c₃⟩, himm, hd⟩ := exists_of_bind_eq_ok hd
    cases hd
    obtain ⟨hfits, hvalue⟩ := consumes_of_fetchBytes w.bytes_le himm
    exact deliversFrom_of_dest (decide_eq_true hfits) rfl hrd rfl ((consumes_of_decodeWidth hw).cons hvalue)
  | moveRegAddrInReg =>
    obtain ⟨⟨rd, c₁⟩, hrd, hd⟩ := exists_of_bind_eq_ok hd
    obtain ⟨⟨w, c₂⟩, hw, hd⟩ := exists_of_bind_eq_ok hd
    obtain ⟨⟨ra, c₃⟩, hra, hd⟩ := exists_of_bind_eq_ok hd
    cases hd
    exact deliversFrom_of_dest rfl rfl hrd rfl ((consumes_of_decodeWidth hw).cons (consumes_of_decodeReg hra))
  | moveRegAddrLiteral =>
    obtain ⟨⟨rd, c₁⟩, hrd, hd⟩ := exists_of_bind_eq_ok hd
    obtain ⟨⟨w, c₂⟩, hw, hd⟩ := exists_of_bind_eq_ok hd
    obtain ⟨⟨addr, c₃⟩, haddr, hd⟩ := exists_of_bind_eq_ok hd
    cases hd
    exact deliversFrom_of_dest rfl rfl hrd rfl
      ((consumes_of_decodeWidth hw).cons (consumes_of_decodeAddrLiteral haddr))
  | moveAddrInRegReg =>
    obtain ⟨⟨ra, c₁⟩, hra, hd⟩ := exists_of_bind_eq_ok hd
    obtain ⟨⟨w, c₂⟩, hw, hd⟩ := exists_of_bind_eq_ok hd
    obtain ⟨⟨rs, c₃⟩, hrs, hd⟩ := exists_of_bind_eq_ok hd
    cases hd
    exact deliversFrom_of_no_dest rfl rfl ((consumes_of_decodeReg hra).cons
      ((consumes_of_decodeWidth hw).cons (consumes_of_decodeReg hrs)))

/-- The encoder writes `Instr.length` bytes, from 1 to 11, for every instruction (30_encoding.md R60, R64). -/
theorem Laws.encodeLength (i : Instr) : Laws.EncodeLength.Statement i := by
  cases i with
  | add => exact Laws.EncodeLength.add
  | sub => exact Laws.EncodeLength.sub
  | mul => exact Laws.EncodeLength.mul
  | div => exact Laws.EncodeLength.div
  | mod => exact Laws.EncodeLength.mod
  | incReg r => exact Laws.EncodeLength.incReg r
  | incAddrInReg w ra => exact Laws.EncodeLength.incAddrInReg w ra
  | incAddrLiteral w addr => exact Laws.EncodeLength.incAddrLiteral w addr
  | decReg r => exact Laws.EncodeLength.decReg r
  | decAddrInReg w ra => exact Laws.EncodeLength.decAddrInReg w ra
  | decAddrLiteral w addr => exact Laws.EncodeLength.decAddrLiteral w addr
  | nop => exact Laws.EncodeLength.nop
  | moveRegReg rd rs => exact Laws.EncodeLength.moveRegReg rd rs
  | moveRegConst rd w imm => exact Laws.EncodeLength.moveRegConst rd w imm
  | moveRegAddrInReg rd w ra => exact Laws.EncodeLength.moveRegAddrInReg rd w ra
  | moveRegAddrLiteral rd w addr => exact Laws.EncodeLength.moveRegAddrLiteral rd w addr
  | moveAddrInRegReg ra w rs => exact Laws.EncodeLength.moveAddrInRegReg ra w rs
  | exit => exact Laws.EncodeLength.exit

theorem length_encode (p : Params) (i : Instr) : (encode p i).length = i.length := (Laws.encodeLength i p).1

theorem Instr.length_pos (i : Instr) : 1 ≤ i.length := (Laws.encodeLength i .default).2.1

theorem Instr.length_le (i : Instr) : i.length ≤ maxLength := (Laws.encodeLength i .default).2.2

theorem encode_decode {p : Params} {bs : List Byte} {i : Instr} {c : Cursor} (h : decode p bs = .ok (i, c)) :
    i.wf p = true ∧ bs = encode p i ++ c.rest ∧ c.pos = i.length := by
  obtain ⟨⟨op, c₁⟩, hop, h⟩ := exists_of_bind_eq_ok h
  dsimp only at h
  split at h
  · cases h
  · next handler hdispatch =>
    obtain ⟨rfl, hwf, hoperands⟩ := deliversFrom_of_decodeOperands h
    have hall := (consumes_of_fetchByte hop).cons hoperands
    rw [← p.opcodes.byteOf_of_dispatch op _ hdispatch] at hall
    obtain ⟨hrest, hpos⟩ := hall
    exact ⟨hwf, hrest, by rw [hpos, ← length_encode p i, Nat.zero_add]; rfl⟩

/-- The default identifiers number the registers in the order of the table of 10_state.md R21. -/
theorem RegIdMap.byteOf_default_all :
    ∀ n : Fin Reg.all.length, RegIdMap.default.byteOf (Reg.all[n.val]) = BitVec.ofNat 8 n.val := by decide

/-! ## The obligations -/

/-- Settles O57: the opcode byte is dispatched to its own handler, whose operands are read back one by one
(`decodeOperands_encodeOperands`). -/
theorem decodeOfEncodeIsIdentity : Obligations.DecodeOfEncodeIsIdentity :=
  fun _ _ rest hp hi => decode_encode hp hi rest

/-- Settles O58: every primitive that succeeds consumed the encoder's bytes of the value it gives
(`deliversFrom_of_decodeOperands`). -/
theorem encodeOfDecodeIsIdentity : Obligations.EncodeOfDecodeIsIdentity :=
  fun _ _ _ _ h => encode_decode h

/-- Settles O53: the default map gives the register of number `b` the byte `b`, and no register a byte from 8 on. -/
theorem decodeRegChecksIdentifier : Obligations.DecodeRegChecksIdentifier := by
  intro p pos rest hp
  refine ⟨decodeReg_of_nil p pos, fun b => ⟨fun hb => ?_, fun hb => ?_⟩⟩
  · have hbyte : p.regIds.byteOf Reg.all[b.toNat] = b := by
      rw [hp, RegIdMap.byteOf_default_all ⟨b.toNat, hb⟩, BitVec.ofNat_toNat, BitVec.setWidth_eq]
    have hids : p.regIds.bytes.Nodup := by rw [hp]; decide
    have h := decodeReg_byteOf hids pos Reg.all[b.toNat] rest
    rwa [hbyte] at h
  · exact decodeReg_of_regOf_eq_none (hp ▸ RegIdMap.regOf_default_eq_none hb) pos rest

/-- Settles O54: DecodeDestReg is DecodeReg followed by the check of the policy. -/
theorem decodeDestRegAppliesPolicy : Obligations.DecodeDestRegAppliesPolicy := by
  intro p c
  refine ⟨fun _ h => decodeDestReg_of_decodeReg_error h, fun r c' h hr => ?admitted, fun c' h hpolicy => ?rejected⟩
  case admitted =>
    refine (decodeDestReg_eq_ok _ _ _ _).2 ⟨h, fun ⟨hpc, hfault⟩ => ?_⟩
    rw [hr hpc] at hfault
    cases hfault
  case rejected => exact bind_eq_of_ok h (if_pos ⟨rfl, hpolicy⟩)

/-- Settles O55: a width byte is read back as its width, and any other byte names none. -/
theorem decodeWidthChecksSize : Obligations.DecodeWidthChecksSize := fun pos rest =>
  ⟨decodeWidth_of_nil pos, fun w => decodeWidth_toByte pos w rest,
    fun _ hb => decodeWidth_of_ofByte_eq_none (Width.ofByte_eq_none hb) pos rest⟩

/-- Settles O56: each word is the encoding of its instruction by evaluation, so the Decoder reads the instruction
back by `decode_encode`. -/
theorem encodingExamplesDecode : Obligations.EncodingExamplesDecode := by
  intro x hx
  have hbytes : encode .default x.1 = x.2 := by
    revert x
    decide
  have hwf : x.1.wf .default = true := by
    revert x
    decide
  have h := decode_encode (p := .default) (by decide) hwf []
  rw [List.append_nil, hbytes, ← length_encode .default, hbytes] at h
  exact ⟨h, hbytes⟩

end Sys2Proof
end

section
/-! PROOFS. Construction and memory (spec/10_state.md R35; spec/20_memory.md R41 and sections 4 and 5), in either byte
order (R45, log 3). -/

namespace Sys2Proof.Machine

/-! ## Byte `k` of a value, in either byte order -/

theorem byteOffset_lt (o : ByteOrder) {w : Width} {k : Nat} (hk : k < w.bytes) : byteOffset o w k < w.bytes := by
  cases o
  · exact hk
  · show w.bytes - 1 - k < w.bytes
    omega

/-- The place that `byteOffset` names is where `ByteOrder.toBytes` puts byte `k`. -/
theorem getElem?_toBytes_byteOffset (o : ByteOrder) {w : Width} (v : Word) {k : Nat} (hk : k < w.bytes) :
    (o.toBytes w.bytes v.toNat)[byteOffset o w k]? = some (v.extractLsb' (8 * k) 8) := by
  have hbyte (hlt : k < (leBytes w.bytes v.toNat).length) :
      (leBytes w.bytes v.toNat)[k] = v.extractLsb' (8 * k) 8 := by
    rw [getElem_leBytes, ofNat_toNat_div_eq_extractLsb']
  have hlt : k < (leBytes w.bytes v.toNat).length := by simpa using hk
  cases o with
  | little =>
    show (leBytes w.bytes v.toNat)[k]? = _
    rw [List.getElem?_eq_getElem hlt, hbyte]
  | big =>
    show (leBytes w.bytes v.toNat).reverse[w.bytes - 1 - k]? = _
    rw [List.getElem?_reverse (by rw [length_leBytes]; omega), length_leBytes,
      show w.bytes - 1 - (w.bytes - 1 - k) = k by omega, List.getElem?_eq_getElem hlt, hbyte]

theorem State.readByte_storeValue (s : State) (addr : Word) {w : Width} (v : Word) {k : Nat} (hk : k < w.bytes) :
    (s.storeValue addr w v).mem.readByte (addr.toNat + byteOffset s.params.byteOrder w k) =
      v.extractLsb' (8 * k) 8 := by
  obtain ⟨hlt, hbyte⟩ := List.getElem?_eq_some_iff.1 (getElem?_toBytes_byteOffset s.params.byteOrder v hk)
  rw [State.storeValue_mem, Memory.readByte_writeBytes_of_inside _ _ _ _ hlt, hbyte]

/-- A loaded word holds the bytes of memory up to its width and zeros above (20_memory.md R42, 00_scope.md R10). -/
theorem State.extractLsb'_loadValue (s : State) (addr : Word) (w : Width) (k : Nat) :
    (s.loadValue addr w).extractLsb' (8 * k) 8 =
      if k < w.bytes then s.mem.readByte (addr.toNat + byteOffset s.params.byteOrder w k) else 0 := by
  split
  · next hk =>
    have hbytes : s.params.byteOrder.toBytes w.bytes (s.loadValue addr w).toNat =
        s.mem.readBytes addr.toNat w.bytes := by
      have h := s.params.byteOrder.toBytes_word (s.mem.readBytes addr.toNat w.bytes) (by simpa using w.bytes_le)
      rwa [Memory.length_readBytes] at h
    obtain ⟨hlt, hbyte⟩ := List.getElem?_eq_some_iff.1
      (getElem?_toBytes_byteOffset s.params.byteOrder (s.loadValue addr w) hk)
    rw [← hbyte]
    simp only [hbytes, Memory.getElem_readBytes]
  · next hk =>
    have hlt : (s.loadValue addr w).toNat < 2 ^ (8 * k) :=
      Nat.lt_of_lt_of_le (s.loadValue_lt addr w) (Nat.pow_le_pow_right (by decide) (by omega))
    rw [← ofNat_toNat_div_eq_extractLsb', Nat.div_eq_of_lt hlt]
    rfl

/-! ## The bytes a fetch sees -/

theorem State.getElem?_fetchWindow {s : State} {k : Nat} (hk : k < maxLength)
    (hcap : (s.reg .pc).toNat + k < s.params.capacity) :
    s.fetchWindow[k]? = some (s.mem.readByte ((s.reg .pc).toNat + k)) := by
  have hlt : k < s.fetchWindow.length := by
    rw [State.fetchWindow, Memory.length_readBytes]
    omega
  rw [List.getElem?_eq_getElem hlt]
  exact congrArg some (Memory.getElem_readBytes _ _ _ _ hlt)

/-! ## A successful write or push leaves the state of its spec lemma -/

theorem State.memWrite_eq_ok {s t : State} {addr : Word} {w : Width} {v : Word} (h : s.memWrite addr w v = .ok t) :
    s.inBounds addr w.bytes ∧ t = s.storeValue addr w v := by
  obtain ⟨hin, e⟩ | ⟨-, e⟩ := s.memWrite_cases addr w v <;> rw [e] at h <;> cases h
  exact ⟨hin, rfl⟩

theorem State.pushBytes_eq_ok {s t : State} {bs : List Byte} (h : s.pushBytes bs = .ok t) :
    s.inBounds (s.reg .sp) bs.length ∧ t = s.pushed bs := by
  obtain ⟨hin, e⟩ | ⟨-, e⟩ := s.pushBytes_cases bs <;> rw [e] at h <;> cases h
  exact ⟨hin, rfl⟩

/-! ## Construction -/

theorem State.inv_construct {p : Params} (hp : p.wf = true) : (State.construct p).Inv where
  params := hp
  memory := by rw [State.construct_mem]; exact List.Pairwise.nil
  inMemory c hc := by rw [State.construct_mem] at hc; cases hc
  exitClear := State.reg_construct p .exit
  faultEndsRun _ := rfl
  pcInMemory _ := by rw [State.reg_construct]; exact Nat.zero_le _

/-! ## The obligations -/

/-- Settles O2: a constructed machine has no byte written, no run and every register 0; the defaults are
parameters of a machine at every capacity below 2^64. -/
theorem constructionMeetsInvariant : Obligations.ConstructionMeetsInvariant :=
  ⟨fun _ hp => State.inv_construct hp, fun n hn => State.inv_construct (Params.wf_ofCapacity n hn),
    State.inv_construct (Params.wf_ofCapacity 65536 (by decide))⟩

/-- Settles O3: the spec lemmas of the access primitives and of a push on either side of the one bounds rule. -/
theorem accessOutOfBoundsFaults : Obligations.AccessOutOfBoundsFaults := by
  intro s addr
  refine ⟨fun w => ⟨fun hin => ?inside, fun hout => ?outside⟩, fun bs hsp _ => ?push⟩
  case inside =>
    exact ⟨⟨_, State.memRead_of_inBounds hin⟩, fun v => ⟨_, State.memWrite_of_inBounds v hin⟩,
      fun f => ⟨_, State.memModify_of_inBounds f hin⟩⟩
  case outside =>
    have hout := Nat.not_le.2 hout
    exact ⟨State.memRead_of_outOfBounds hout, fun v => State.memWrite_of_outOfBounds v hout,
      fun f => State.memModify_of_outOfBounds f hout⟩
  case push =>
    subst hsp
    exact ⟨fun hin => ⟨_, State.pushBytes_of_inBounds hin⟩,
      fun hout => State.pushBytes_of_outOfBounds (Nat.not_le.2 hout)⟩

/-- Settles O6: a store keeps the capacity, so the read is in bounds too, and it gives the value stored cut to its
width (`State.loadValue_storeValue`). -/
theorem storeThenLoadGivesLowBytes : Obligations.StoreThenLoadGivesLowBytes := by
  intro s t addr w v h
  obtain ⟨hin, rfl⟩ := State.memWrite_eq_ok h
  refine ⟨_, State.memRead_of_inBounds hin, ?_⟩
  rw [State.loadValue_storeValue, toNat_truncWidth]

/-- Settles O11: after the push the stack pointer is `bs.length` higher and within `CAPACITY`, so the pop is in
bounds and reads at the old stack pointer, where the bytes read back as written. -/
theorem popUndoesPush : Obligations.PopUndoesPush := by
  intro s t bs hcap h
  obtain ⟨hin, rfl⟩ := State.pushBytes_eq_ok h
  have hsp : (s.pushed bs).reg .sp = s.reg .sp + BitVec.ofNat 64 bs.length := by
    rw [State.reg_pushed, if_pos rfl]
  have hnat : ((s.pushed bs).reg .sp).toNat = (s.reg .sp).toNat + bs.length := by
    rw [hsp, toNat_add_ofNat_of_lt (Nat.lt_of_le_of_lt hin hcap)]
  have hback : (s.pushed bs).reg .sp - BitVec.ofNat 64 bs.length = s.reg .sp := by
    rw [hsp, BitVec.add_sub_cancel]
  have hpop := State.popBytes_of_inBounds (s := s.pushed bs) (n := bs.length)
    ⟨by rw [hnat]; exact Nat.le_add_left _ _, by rw [hnat]; exact hin⟩
  rw [hback, State.pushed_mem, Memory.readBytes_writeBytes] at hpop
  exact ⟨_, hpop, by rw [State.reg_setReg, if_pos rfl]⟩

/-- Settles O48: the window shows the byte of memory at that place, which the store put there. -/
theorem fetchSeesStoredBytes : Obligations.FetchSeesStoredBytes := by
  intro s t addr w v h hpc k hk
  obtain ⟨hin, rfl⟩ := State.memWrite_eq_ok h
  rw [State.reg_storeValue] at hpc
  subst hpc
  have hoffset := byteOffset_lt s.params.byteOrder hk
  have hmax : byteOffset s.params.byteOrder w k < maxLength :=
    Nat.lt_of_lt_of_le hoffset (Nat.le_trans w.bytes_le (by decide))
  have hseen := State.getElem?_fetchWindow (s := s.storeValue (s.reg .pc) w v) hmax
    (Nat.lt_of_lt_of_le (Nat.add_lt_add_left hoffset _) hin)
  rw [hseen, State.reg_storeValue, s.readByte_storeValue _ v hk]

end Sys2Proof.Machine
end

section
/-! PROOFS. The handlers with operands (spec/42_incdec.md R120 to R125, spec/43_data_movement.md R140 to R144), the
division law (spec/41_arithmetic.md), and where a handler raises (spec/60_exceptions.md R171 and R177). -/

namespace Sys2Proof.Machine

/-! ## The policy on destinations (40_execution_loop.md R83) -/

theorem State.admitsDest_iff (s : State) (rd : Reg) :
    s.AdmitsDest rd ↔ ¬(rd = .pc ∧ s.params.pcWritePolicy = .fault) := by
  unfold State.AdmitsDest
  cases s.params.pcWritePolicy <;> simp

theorem State.admitsDest_of_wf {s : State} {i : Instr} {rd : Reg} (hi : i.wf s.params = true)
    (hdest : i.dest = some rd) : s.AdmitsDest rd :=
  (s.admitsDest_iff rd).2 fun h => ((Instr.wf_iff _ _).1 hi).2 ⟨h.1 ▸ hdest, h.2⟩

theorem withDest_of_admitsDest {rd : Reg} {s : State} (h : s.AdmitsDest rd) (k : Result) : withDest rd s k = k :=
  if_neg ((s.admitsDest_iff rd).1 h)

theorem withDest_pc {s : State} (h : s.params.pcWritePolicy = .fault) (k : Result) :
    withDest .pc s k =
      .next ((s.consume 1).raise (.programCounterWrite (s.params.regIds.byteOf .pc))) := if_pos ⟨rfl, h⟩

/-- Every form with a destination operand asks the policy before it does anything else. -/
theorem exec_of_dest {i : Instr} {rd : Reg} (h : i.dest = some rd) (s : State) :
    ∃ k, exec i s = withDest rd s k := by
  cases i with
  | incReg | decReg | moveRegReg | moveRegConst | moveRegAddrInReg | moveRegAddrLiteral =>
    cases h
    exact ⟨_, rfl⟩
  | _ => cases h

/-! ## What an update past the operand bytes leaves unchanged -/

theorem State.onlyRegs_consume (s : State) (n : Nat) {rs : List Reg} (h : .pc ∈ rs) : s.OnlyRegs (s.consume n) rs :=
  (State.OnlyRegs.refl s rs).setReg h _

theorem State.OnlyRegs.storeValue {s t : State} {rs : List Reg} (h : s.OnlyRegs t rs) (addr : Word) (w : Width)
    (v : Word) : s.OnlyRegsAndBytes (t.storeValue addr w v) rs addr w := by
  obtain ⟨hcontext, hregs, hbytes⟩ := h
  exact ⟨hcontext, hregs, fun x hx => (t.readByte_storeValue_of_outside addr w v x hx).trans (hbytes x)⟩

theorem State.OnlyRegsAndBytes.setReg {s t : State} {rs : List Reg} {addr : Word} {w : Width} {r : Reg}
    (h : s.OnlyRegsAndBytes t rs addr w) (hr : r ∈ rs) (v : Word) :
    s.OnlyRegsAndBytes (t.setReg r v) rs addr w := by
  obtain ⟨hcontext, hregs, hbytes⟩ := h
  refine ⟨hcontext, fun q hq => ?_, hbytes⟩
  have hne : q ≠ r := fun e => hq (e ▸ hr)
  rw [State.reg_setReg_of_ne hne, hregs q hq]

theorem State.OnlyRegsAndBytes.setFlags {s t : State} {rs : List Reg} {addr : Word} {w : Width}
    (h : s.OnlyRegsAndBytes t rs addr w) (hzf : .zf ∈ rs) (hsf : .sf ∈ rs) (hrf : .rf ∈ rs) (v : Word) :
    s.OnlyRegsAndBytes (t.setFlags w v) rs addr w :=
  ((h.setReg hzf _).setReg hsf _).setReg hrf _

/-- A raise past `n` operand bytes records the PROGRAM_COUNTER it leaves (60_exceptions.md R176, R178). -/
theorem State.raised_raise_consume (s : State) (n : Nat) (k : FaultKind) :
    s.Raised ((s.consume n).raise k) k s.ipc (s.reg .pc + BitVec.ofNat 64 n) := by
  have hpc : (s.consume n).reg .pc = s.reg .pc + BitVec.ofNat 64 n := by rw [State.reg_consume, if_pos rfl]
  obtain ⟨hcontext, hregs, hbytes⟩ := s.onlyRegs_consume n (List.mem_singleton.2 rfl)
  exact ⟨by rw [State.raise_fault, hpc, State.consume_ipc], rfl, hpc, hregs, hbytes, rfl, rfl, rfl, rfl⟩

/-! ## Writing a register past the operand bytes (43_data_movement.md R140 to R143) -/

theorem State.reg_pc_setReg_consume (s : State) (n : Nat) {rd : Reg} (v : Word) (h : rd ≠ .pc) :
    ((s.consume n).setReg rd v).reg .pc = s.reg .pc + BitVec.ofNat 64 n := by
  rw [State.reg_setReg_of_ne h.symm, State.reg_consume, if_pos rfl]

theorem State.onlyRegs_setReg_consume (s : State) (n : Nat) (rd : Reg) (v : Word) :
    s.OnlyRegs ((s.consume n).setReg rd v) [rd, .pc] :=
  (s.onlyRegs_consume n (by simp)).setReg (by simp) v

/-! ## INC and DEC of a register (42_incdec.md R120 and R121) -/

/-- What both leave where the policy admits the target: `v` is the new value, and the flags are written last. -/
theorem modifyReg_answers {s : State} {r : Reg} {f : Word → Word} {v : Nat} (hr : s.AdmitsDest r)
    (hv : (f ((s.consume 1).reg r)).toNat = v) :
    ∃ t, withDest r s (.next ((s.consume 1).modifyReg r f)) = .next t ∧
      (r ∉ [.zf, .sf, .rf] → (t.reg r).toNat = v) ∧ t.FlagsOf .w8 v ∧
      (r ≠ .pc → t.reg .pc = s.reg .pc + 1) ∧ s.OnlyRegs t [r, .zf, .sf, .rf, .pc] := by
  subst hv
  refine ⟨_, withDest_of_admitsDest hr _, fun hflag => ?value, State.flagsOf_setFlags _ .w8 _, fun hpc => ?pc,
    ((s.onlyRegs_consume 1 (by simp)).setReg (by simp) _).setFlags (by simp) (by simp) (by simp) .w8 _⟩
  case value =>
    simp only [List.mem_cons, List.not_mem_nil, or_false, not_or] at hflag
    obtain ⟨hzf, hsf, hrf⟩ := hflag
    rw [State.reg_modifyReg, if_neg hrf, if_neg hsf, if_neg hzf, if_pos rfl]
  case pc =>
    rw [State.reg_modifyReg, if_neg (by decide), if_neg (by decide), if_neg (by decide), if_neg hpc.symm,
      State.reg_consume, if_pos rfl]
    rfl

/-! ## INC and DEC of a value in memory (42_incdec.md R122 to R125) -/

theorem State.modifyMemory_of_inBounds {s : State} {w : Width} {addr : Word} (f : Word → Word)
    (h : s.inBounds addr w.bytes) :
    s.modifyMemory w addr f =
      .next ((s.storeValue addr w (truncWidth w (f (s.loadValue addr w)))).setFlags w
        (truncWidth w (f (s.loadValue addr w)))) := by
  rw [State.modifyMemory, State.memModify_of_inBounds _ h]
  rfl

theorem State.modifyMemory_of_outOfBounds {s : State} {w : Width} {addr : Word} (f : Word → Word)
    (h : ¬s.inBounds addr w.bytes) :
    s.modifyMemory w addr f = .next (s.raise (.memoryFault addr w.bytes)) := by
  rw [State.modifyMemory, State.memModify_of_outOfBounds _ h]
  rfl

/-- What all four leave in bounds: `v` is the new value, cut to its width. -/
theorem modifyMemory_answers {s : State} (n : Nat) {w : Width} {addr : Word} (f : Word → Word) {v : Nat}
    (hin : addr.toNat + w.bytes ≤ s.params.capacity)
    (hv : (f (s.loadValue addr w)).toNat % 2 ^ (8 * w.bytes) = v) :
    ∃ t, (s.consume n).modifyMemory w addr f = .next t ∧
      (t.loadValue addr w).toNat = v ∧ t.FlagsOf w v ∧ t.reg .pc = s.reg .pc + BitVec.ofNat 64 n ∧
      s.OnlyRegsAndBytes t [.zf, .sf, .rf, .pc] addr w := by
  refine ⟨_, State.modifyMemory_of_inBounds f hin, ?value, ?flags, ?pc,
    ((s.onlyRegs_consume n (by decide)).storeValue addr w _).setFlags (by decide) (by decide) (by decide) _⟩
  case value =>
    have hload := (s.consume n).loadValue_storeValue addr w (truncWidth w (f (s.loadValue addr w)))
    refine (congrArg BitVec.toNat hload).trans ?_
    rw [toNat_truncWidth, toNat_truncWidth, Nat.mod_mod, hv]
  case flags =>
    have hflags := State.flagsOf_setFlags
      ((s.consume n).storeValue addr w (truncWidth w (f (s.loadValue addr w)))) w
      (truncWidth w (f (s.loadValue addr w)))
    rwa [toNat_truncWidth, hv] at hflags
  case pc =>
    rw [State.reg_setFlags, if_neg (by decide), if_neg (by decide), if_neg (by decide), State.reg_storeValue,
      State.reg_consume, if_pos rfl]

theorem toNat_add_one_mod (w : Width) (v : Word) :
    (v + 1).toNat % 2 ^ (8 * w.bytes) = (v.toNat + 1) % 2 ^ (8 * w.bytes) := by
  rw [BitVec.toNat_add]
  exact Nat.mod_mod_of_dvd _ (Nat.pow_dvd_pow 2 (Nat.mul_le_mul_left 8 w.bytes_le))

/-- Subtracting 1 is adding 2^(8w) - 1, since 2^(8w) divides 2^64. -/
theorem toNat_sub_one_mod (w : Width) (v : Word) :
    (v - 1).toNat % 2 ^ (8 * w.bytes) = (v.toNat + (2 ^ (8 * w.bytes) - 1)) % 2 ^ (8 * w.bytes) := by
  have hone : (1 : Word).toNat = 1 := rfl
  rw [BitVec.toNat_sub, hone]
  cases w <;> simp only [Width.bytes] <;> omega

/-! ## Loads and the store, on either side of the bound (43_data_movement.md R142 to R144) -/

theorem State.loadReg_of_inBounds {s : State} {w : Width} {addr : Word} (rd : Reg) (h : s.inBounds addr w.bytes) :
    s.loadReg rd w addr = .next (s.setReg rd (s.loadValue addr w)) := by
  rw [State.loadReg, State.memRead_of_inBounds h]
  rfl

theorem State.loadReg_of_outOfBounds {s : State} {w : Width} {addr : Word} (rd : Reg)
    (h : ¬s.inBounds addr w.bytes) : s.loadReg rd w addr = .next (s.raise (.memoryFault addr w.bytes)) := by
  rw [State.loadReg, State.memRead_of_outOfBounds h]
  rfl

theorem State.storeReg_of_inBounds {s : State} {w : Width} {addr : Word} (rs : Reg) (h : s.inBounds addr w.bytes) :
    s.storeReg w addr rs = .next (s.storeValue addr w (s.reg rs)) := by
  rw [State.storeReg, State.memWrite_of_inBounds _ h]
  rfl

theorem State.storeReg_of_outOfBounds {s : State} {w : Width} {addr : Word} (rs : Reg)
    (h : ¬s.inBounds addr w.bytes) : s.storeReg w addr rs = .next (s.raise (.memoryFault addr w.bytes)) := by
  rw [State.storeReg, State.memWrite_of_outOfBounds _ h]
  rfl

/-- What both loads leave where the policy admits the destination and the access is in bounds. -/
theorem loadReg_answers {s : State} (n : Nat) {rd : Reg} {w : Width} {addr : Word} (hrd : s.AdmitsDest rd)
    (hin : addr.toNat + w.bytes ≤ s.params.capacity) :
    ∃ t, withDest rd s ((s.consume n).loadReg rd w addr) = .next t ∧
      (∀ k < 8, (t.reg rd).extractLsb' (8 * k) 8 =
        if k < w.bytes then s.mem.readByte (addr.toNat + byteOffset s.params.byteOrder w k) else 0) ∧
      (rd ≠ .pc → t.reg .pc = s.reg .pc + BitVec.ofNat 64 n) ∧ s.OnlyRegs t [rd, .pc] := by
  refine ⟨_, (withDest_of_admitsDest hrd _).trans (State.loadReg_of_inBounds rd hin), fun k _ => ?_,
    s.reg_pc_setReg_consume n _, s.onlyRegs_setReg_consume n rd _⟩
  rw [State.reg_setReg, if_pos rfl]
  exact (s.consume n).extractLsb'_loadValue addr w k

/-- An answer that is a raise past `n` operand bytes, as the statements name it. -/
theorem raised_of_eq_raise {s : State} {n : Nat} {k : FaultKind} {answer : Result}
    (h : answer = .next ((s.consume n).raise k)) :
    ∃ t, answer = .next t ∧ t.trace = s.trace ∧ s.Raised t k s.ipc (s.reg .pc + BitVec.ofNat 64 n) :=
  ⟨_, h, rfl, s.raised_raise_consume n k⟩

/-! ## The obligations -/

/-- Settles O18: A after DIV is the quotient, A after MOD the remainder, and the division law is that of the natural
numbers. -/
theorem divAndModSatisfyDivisionLaw : Obligations.DivAndModSatisfyDivisionLaw := by
  intro s hb
  have hpos : 0 < (s.reg .b).toNat := Nat.pos_of_ne_zero fun h => hb (BitVec.eq_of_toNat_eq h)
  refine ⟨_, _, exec_div_of_ne_zero hb, exec_mod_of_ne_zero hb, ?law, ?below, ?agree, ?clear⟩
  case law =>
    rw [State.reg_setReg_of_ne (by decide), State.reg_a_writeA, State.reg_a_writeA, BitVec.toNat_udiv,
      BitVec.toNat_umod, Nat.div_add_mod']
  case below =>
    rw [State.reg_a_writeA, BitVec.toNat_umod]
    exact Nat.mod_lt _ hpos
  case agree => rw [State.reg_setReg, if_pos rfl, State.reg_a_writeA]
  case clear => rw [State.reg_writeA, if_pos rfl]

/-- Settles O19: `modifyReg_answers` at the sum with 1. -/
theorem incRegAddsOneThenSetsFlags : Obligations.IncRegAddsOneThenSetsFlags := by
  intro r s hr
  obtain ⟨t, hexec, hspec⟩ := modifyReg_answers (f := (· + 1)) hr (BitVec.toNat_add _ _)
  exact ⟨t, _, hexec, rfl, hspec⟩

/-- Settles O20: `modifyReg_answers` at the difference with 1. -/
theorem decRegSubtractsOneThenSetsFlags : Obligations.DecRegSubtractsOneThenSetsFlags := by
  intro r s hr
  obtain ⟨t, hexec, hspec⟩ := modifyReg_answers (f := (· - 1)) hr
    ((BitVec.toNat_sub _ _).trans (congrArg (· % 2 ^ 64) (Nat.add_comm _ _)))
  exact ⟨t, _, hexec, rfl, hspec⟩

/-- Settles O21: both forms are `modifyMemory_answers` at the sum with 1. -/
theorem incMemoryAddsOneAndSetsNarrowFlags : Obligations.IncMemoryAddsOneAndSetsNarrowFlags := by
  refine ⟨fun w ra s hin => ?inRegister, fun w addr s hin => ?literal⟩
  case inRegister =>
    obtain ⟨t, hexec, hspec⟩ := modifyMemory_answers 2 (· + 1) hin (toNat_add_one_mod w _)
    exact ⟨t, _, hexec, rfl, hspec⟩
  case literal =>
    obtain ⟨t, hexec, hspec⟩ := modifyMemory_answers 9 (· + 1) hin (toNat_add_one_mod w _)
    exact ⟨t, _, hexec, rfl, hspec⟩

/-- Settles O22: both forms are `modifyMemory_answers` at the difference with 1. -/
theorem decMemorySubtractsOneAndSetsNarrowFlags : Obligations.DecMemorySubtractsOneAndSetsNarrowFlags := by
  refine ⟨fun w ra s hin => ?inRegister, fun w addr s hin => ?literal⟩
  case inRegister =>
    obtain ⟨t, hexec, hspec⟩ := modifyMemory_answers 2 (· - 1) hin (toNat_sub_one_mod w _)
    exact ⟨t, _, hexec, rfl, hspec⟩
  case literal =>
    obtain ⟨t, hexec, hspec⟩ := modifyMemory_answers 9 (· - 1) hin (toNat_sub_one_mod w _)
    exact ⟨t, _, hexec, rfl, hspec⟩

/-- Settles O23: the source is read past the operand bytes, before the destination is written. -/
theorem moveRegRegCopiesSource : Obligations.MoveRegRegCopiesSource := by
  intro rd rs s hrd
  refine ⟨_, withDest_of_admitsDest hrd _, ?_, s.reg_pc_setReg_consume 2 _, s.onlyRegs_setReg_consume 2 rd _⟩
  rw [State.reg_setReg, if_pos rfl]
  exact s.reg_consume 2 rs

/-- Settles O24: well-formedness gives both that the policy admits the destination and that the immediate fits. -/
theorem moveRegConstLoadsImmediate : Obligations.MoveRegConstLoadsImmediate := by
  intro rd w imm s hi
  have hvalue : ((s.consume (2 + w.bytes)).setReg rd imm).reg rd = imm := by rw [State.reg_setReg, if_pos rfl]
  exact ⟨_, withDest_of_admitsDest (State.admitsDest_of_wf hi rfl) _, hvalue,
    by rw [hvalue]; exact of_decide_eq_true ((Instr.wf_iff _ _).1 hi).1,
    s.reg_pc_setReg_consume _ imm, s.onlyRegs_setReg_consume _ rd imm⟩

/-- Settles O25: `loadReg_answers` past three operand bytes. -/
theorem moveRegAddrInRegLoadsZeroExtended : Obligations.MoveRegAddrInRegLoadsZeroExtended :=
  fun _ _ _ _ hrd hin => loadReg_answers 3 hrd hin

/-- Settles O26: `loadReg_answers` past ten operand bytes. -/
theorem moveRegAddrLiteralLoadsZeroExtended : Obligations.MoveRegAddrLiteralLoadsZeroExtended :=
  fun _ _ _ _ hrd hin => loadReg_answers 10 hrd hin

/-- Settles O27: the bytes by `State.readByte_storeValue`, the rest by the frame of a store. -/
theorem moveAddrInRegRegStoresLowBytes : Obligations.MoveAddrInRegRegStoresLowBytes := by
  intro ra w rs s hin
  refine ⟨_, State.storeReg_of_inBounds rs hin, fun k hk => ?bytes, ?pc,
    (s.onlyRegs_consume 3 (List.mem_singleton.2 rfl)).storeValue _ w _⟩
  case bytes => exact (s.consume 3).readByte_storeValue _ _ hk
  case pc => exact s.reg_consume 3 .pc

/-- Settles O30: every form with a destination begins with the policy (`exec_of_dest`), and it raises past the
destination byte. -/
theorem destinationPcRaises : Obligations.DestinationPcRaises := by
  intro i s hdest hpolicy
  obtain ⟨k, hexec⟩ := exec_of_dest hdest s
  obtain ⟨t, hanswer, htrace, hraised⟩ := raised_of_eq_raise (hexec.trans (withDest_pc hpolicy k))
  exact ⟨t, hanswer, hraised, htrace⟩

/-- Settles O31: each form, out of bounds, answers the raise of its access. -/
theorem dataAccessOutOfBoundsRaises : Obligations.DataAccessOutOfBoundsRaises := by
  refine fun w s => ⟨fun ra hout => ?modifyInReg, fun addr hout => ?modifyLiteral, fun rd ra hrd hout => ?loadInReg,
    fun rd addr hrd hout => ?loadLiteral, fun ra rs hout => ?store⟩
  case modifyInReg =>
    rintro i (rfl | rfl)
    all_goals exact raised_of_eq_raise (n := 2) (State.modifyMemory_of_outOfBounds _ (Nat.not_le.2 hout))
  case modifyLiteral =>
    rintro i (rfl | rfl)
    all_goals exact raised_of_eq_raise (n := 9) (State.modifyMemory_of_outOfBounds _ (Nat.not_le.2 hout))
  case loadInReg =>
    exact raised_of_eq_raise (n := 3)
      ((withDest_of_admitsDest hrd _).trans (State.loadReg_of_outOfBounds rd (Nat.not_le.2 hout)))
  case loadLiteral =>
    exact raised_of_eq_raise (n := 10)
      ((withDest_of_admitsDest hrd _).trans (State.loadReg_of_outOfBounds rd (Nat.not_le.2 hout)))
  case store => exact raised_of_eq_raise (n := 3) (State.storeReg_of_outOfBounds rs (Nat.not_le.2 hout))

end Sys2Proof.Machine
end

section
/-! PROOFS. The step of a run (spec/40_execution_loop.md sections 1, 3, 4 and 5; spec/60_exceptions.md sections 2
to 4): what the Decoder sees, how a step ends, and where PROGRAM_COUNTER stands then. -/

namespace Sys2Proof

/-! ## A Decoder that stops has consumed no more than there was -/

/-- Where the Decoder's position may go with `n` bytes in all: what it delivers leaves the rest of them, and what it
rejects has consumed at most that many. -/
def StaysWithin (n : Nat) {α : Type} : Except Reject (α × Cursor) → Prop
  | .ok x => x.2.pos + x.2.rest.length = n
  | .error r => r.consumed ≤ n

theorem StaysWithin.bind {n : Nat} {α β : Type} {x : Except Reject (α × Cursor)}
    {next : α × Cursor → Except Reject (β × Cursor)} (hx : StaysWithin n x)
    (hnext : ∀ a c, c.pos + c.rest.length = n → StaysWithin n (next (a, c))) : StaysWithin n (x >>= next) := by
  cases x with
  | error r => exact hx
  | ok x => exact hnext x.1 x.2 hx

section
variable {n : Nat} {c : Cursor} (h : c.pos + c.rest.length = n)
include h

theorem fetchByte_staysWithin : StaysWithin n (fetchByte c) := by
  obtain ⟨pos, rest⟩ := c
  cases rest with
  | nil => exact Nat.le.intro h
  | cons b rest => exact (by simp only [List.length_cons] at h; omega : pos + 1 + rest.length = n)

theorem fetchBytes_staysWithin (o : ByteOrder) (k : Nat) : StaysWithin n (fetchBytes o k c) := by
  unfold fetchBytes
  split
  · exact Nat.le.intro h
  · next hlen =>
    show c.pos + k + (c.rest.drop k).length = n
    rw [List.length_drop]
    omega

theorem decodeReg_staysWithin (p : Params) : StaysWithin n (decodeReg p c) := by
  refine (fetchByte_staysWithin h).bind fun b c' hc' => ?_
  dsimp only
  split
  · exact hc'
  · exact Nat.le.intro hc'

theorem decodeDestReg_staysWithin (p : Params) : StaysWithin n (decodeDestReg p c) := by
  refine (decodeReg_staysWithin h p).bind fun r c' hc' => ?_
  dsimp only
  split
  · exact Nat.le.intro hc'
  · exact hc'

theorem decodeWidth_staysWithin : StaysWithin n (decodeWidth c) := by
  refine (fetchByte_staysWithin h).bind fun b c' hc' => ?_
  dsimp only
  split
  · exact hc'
  · exact Nat.le.intro hc'

theorem decodeOperands_staysWithin (p : Params) (op : Opcode) : StaysWithin n (decodeOperands p op c) := by
  cases op with
  | add | sub | mul | div | mod | nop | exit => exact h
  | incReg | decReg => exact (decodeDestReg_staysWithin h p).bind fun _ _ h => h
  | incAddrInReg | decAddrInReg =>
    exact (decodeWidth_staysWithin h).bind fun _ _ h => (decodeReg_staysWithin h p).bind fun _ _ h => h
  | incAddrLiteral | decAddrLiteral =>
    exact (decodeWidth_staysWithin h).bind fun _ _ h => (fetchBytes_staysWithin h _ 8).bind fun _ _ h => h
  | moveRegReg =>
    exact (decodeDestReg_staysWithin h p).bind fun _ _ h => (decodeReg_staysWithin h p).bind fun _ _ h => h
  | moveRegConst =>
    exact (decodeDestReg_staysWithin h p).bind fun _ _ h => (decodeWidth_staysWithin h).bind fun w _ h =>
      (fetchBytes_staysWithin h _ w.bytes).bind fun _ _ h => h
  | moveRegAddrInReg =>
    exact (decodeDestReg_staysWithin h p).bind fun _ _ h => (decodeWidth_staysWithin h).bind fun _ _ h =>
      (decodeReg_staysWithin h p).bind fun _ _ h => h
  | moveRegAddrLiteral =>
    exact (decodeDestReg_staysWithin h p).bind fun _ _ h => (decodeWidth_staysWithin h).bind fun _ _ h =>
      (fetchBytes_staysWithin h _ 8).bind fun _ _ h => h
  | moveAddrInRegReg =>
    exact (decodeReg_staysWithin h p).bind fun _ _ h => (decodeWidth_staysWithin h).bind fun _ _ h =>
      (decodeReg_staysWithin h p).bind fun _ _ h => h

end

theorem decode_staysWithin (p : Params) (bs : List Byte) : StaysWithin bs.length (decode p bs) := by
  refine (fetchByte_staysWithin (Nat.zero_add _)).bind fun op c hc => ?_
  dsimp only
  split
  · exact Nat.zero_le _
  · exact decodeOperands_staysWithin hc p _

theorem consumed_le_of_decode_error {p : Params} {bs : List Byte} {r : Reject} (h : decode p bs = .error r) :
    r.consumed ≤ bs.length := by
  have hwithin := decode_staysWithin p bs
  rwa [h] at hwithin

theorem decode_of_nil (p : Params) : decode p [] = .error { error := .endOfMemory 1, consumed := 0 } :=
  bind_eq_of_error (fetchByte_of_nil 0)

/-! ## An operand that passes the end of the bytes -/

theorem fetchBytes_of_length_lt (o : ByteOrder) {n k : Nat} {rest : List Byte} (h : rest.length < k) :
    fetchBytes o k ⟨n, rest⟩ = .error { error := .endOfMemory k, consumed := n } := if_pos h

theorem OperandField.rejectsAt_of_length_lt (p : Params) (f : OperandField) {n : Nat} {rest : List Byte}
    (h : rest.length < f.bytes) : f.RejectsAt p ⟨n, rest⟩ { error := .endOfMemory f.bytes, consumed := n } := by
  have hnil (hone : f.bytes = 1) : rest = [] := List.eq_nil_of_length_eq_zero (Nat.lt_one_iff.1 (hone ▸ h))
  cases f with
  | reg =>
    rw [hnil rfl]
    exact decodeReg_of_nil p n
  | dest =>
    rw [hnil rfl]
    exact decodeDestReg_of_decodeReg_error (decodeReg_of_nil p n)
  | width =>
    rw [hnil rfl]
    exact decodeWidth_of_nil n
  | value k => exact fetchBytes_of_length_lt _ h

/-- Every operand lies within its instruction (30_encoding.md R63, R64). -/
theorem Instr.operandFields_end (i : Instr) : ∀ x ∈ i.operandFields, x.1 + x.2.bytes ≤ i.length := by
  cases i with
  | moveRegConst rd w imm =>
    simpa [Instr.operandFields, Instr.length, OperandField.bytes] using (by omega : 2 ≤ 3 + w.bytes)
  | _ => simp [Instr.operandFields, Instr.length, OperandField.bytes]

end Sys2Proof

namespace Sys2Proof.Machine

/-! ## The bytes the Decoder sees -/

theorem State.length_fetchWindow (s : State) :
    s.fetchWindow.length = min maxLength (s.params.capacity - (s.reg .pc).toNat) := by
  rw [State.fetchWindow, Memory.length_readBytes]

theorem State.fetchWindow_eq_readBytes_append {s : State} {k : Nat} (hk : k ≤ s.fetchWindow.length) :
    s.fetchWindow = s.mem.readBytes (s.reg .pc).toNat k ++
      s.mem.readBytes ((s.reg .pc).toNat + k) (s.fetchWindow.length - k) := by
  rw [← Memory.readBytes_add, Nat.add_sub_cancel' hk, State.length_fetchWindow]
  rfl

/-- An instruction the Decoder delivers lies whole within `CAPACITY`. -/
theorem State.pc_add_length_le_of_decode {s : State} {i : Instr} {c : Cursor}
    (h : decode s.params s.fetchWindow = .ok (i, c)) :
    (s.reg .pc).toNat + i.length ≤ s.params.capacity := by
  obtain ⟨-, hbytes, -⟩ := encode_decode h
  have hlen := congrArg List.length hbytes
  rw [State.length_fetchWindow, List.length_append, length_encode] at hlen
  have hpos := i.length_pos
  omega

theorem State.decode_of_readBytes {s : State} {i : Instr} (hp : s.params.wf = true) (hi : i.wf s.params = true)
    (hcap : (s.reg .pc).toNat + i.length ≤ s.params.capacity)
    (hbytes : s.mem.readBytes (s.reg .pc).toNat i.length = encode s.params i) :
    ∃ c, decode s.params s.fetchWindow = .ok (i, c) := by
  have hlen : i.length ≤ s.fetchWindow.length := by
    rw [State.length_fetchWindow]
    exact Nat.le_min.2 ⟨i.length_le, Nat.le_sub_of_add_le (by rwa [Nat.add_comm])⟩
  rw [State.fetchWindow_eq_readBytes_append hlen, hbytes]
  exact ⟨_, decode_encode hp hi _⟩

/-! ## PROGRAM_COUNTER after a handler -/

theorem withDest_of_ne_pc {rd : Reg} (h : rd ≠ .pc) (s : State) (k : Result) : withDest rd s k = k :=
  if_neg fun hpc => h hpc.1

theorem State.reg_pc_consume (s : State) (n : Nat) : (s.consume n).reg .pc = s.reg .pc + BitVec.ofNat 64 n := by
  rw [State.reg_consume, if_pos rfl]

theorem reg_pc_of_modifyMemory {s t : State} {w : Width} {addr : Word} {f : Word → Word}
    (h : s.modifyMemory w addr f = .next t) : t.reg .pc = s.reg .pc := by
  obtain ⟨-, e⟩ | ⟨-, e⟩ := s.modifyMemory_cases w addr f <;> rw [e] at h <;> cases h
  · simp [State.reg_setFlags]
  · rfl

theorem reg_pc_of_loadReg {s t : State} {rd : Reg} {w : Width} {addr : Word} (hrd : rd ≠ .pc)
    (h : s.loadReg rd w addr = .next t) : t.reg .pc = s.reg .pc := by
  obtain ⟨-, e⟩ | ⟨-, e⟩ := s.loadReg_cases rd w addr <;> rw [e] at h <;> cases h
  · exact State.reg_setReg_of_ne hrd.symm
  · rfl

theorem reg_pc_of_storeReg {s t : State} {w : Width} {addr : Word} {rs : Reg}
    (h : s.storeReg w addr rs = .next t) : t.reg .pc = s.reg .pc := by
  obtain ⟨-, e⟩ | ⟨-, e⟩ := s.storeReg_cases w addr rs <;> rw [e] at h <;> cases h <;> rfl

/-- Whether it completes or raises, a handler without PROGRAM_COUNTER as its destination leaves PROGRAM_COUNTER past
its operand bytes (R93, R94). -/
theorem reg_pc_of_exec {i : Instr} {s t : State} (hdest : i.dest ≠ some .pc) (h : exec i s = .next t) :
    t.reg .pc = s.reg .pc + BitVec.ofNat 64 (i.length - 1) := by
  have hrd {rd : Reg} (hi : i.dest = some rd) : rd ≠ .pc := fun hpc => hdest (hpc ▸ hi)
  have hzero : s.reg .pc + BitVec.ofNat 64 0 = s.reg .pc := BitVec.add_zero _
  cases i with
  | add | sub | mul =>
    cases h
    exact (by simp [State.reg_writeA] : _ = s.reg .pc).trans hzero.symm
  | div | mod =>
    simp only [exec, execDiv, execMod] at h
    refine Eq.trans ?_ hzero.symm
    split at h <;> cases h
    · rfl
    · simp [State.reg_writeA]
  | nop | exit =>
    cases h
    exact hzero.symm
  | incReg r | decReg r =>
    have hr := hrd rfl
    cases (withDest_of_ne_pc hr s _).symm.trans h
    simp [State.reg_modifyReg, hr.symm, Instr.length]
  | incAddrInReg w ra | decAddrInReg w ra => exact (reg_pc_of_modifyMemory h).trans (s.reg_pc_consume 2)
  | incAddrLiteral w addr | decAddrLiteral w addr => exact (reg_pc_of_modifyMemory h).trans (s.reg_pc_consume 9)
  | moveRegReg rd rs =>
    cases (withDest_of_ne_pc (hrd rfl) s _).symm.trans h
    exact s.reg_pc_setReg_consume 2 _ (hrd rfl)
  | moveRegConst rd w imm =>
    cases (withDest_of_ne_pc (hrd rfl) s _).symm.trans h
    rw [s.reg_pc_setReg_consume _ _ (hrd rfl), Instr.length, show 3 + w.bytes - 1 = 2 + w.bytes by omega]
  | moveRegAddrInReg rd w ra =>
    have hload := (withDest_of_ne_pc (hrd rfl) s _).symm.trans h
    exact (reg_pc_of_loadReg (hrd rfl) hload).trans (s.reg_pc_consume 3)
  | moveRegAddrLiteral rd w addr =>
    have hload := (withDest_of_ne_pc (hrd rfl) s _).symm.trans h
    exact (reg_pc_of_loadReg (hrd rfl) hload).trans (s.reg_pc_consume 10)
  | moveAddrInRegReg ra w rs => exact (reg_pc_of_storeReg h).trans (s.reg_pc_consume 3)

/-- In a step, that is past the last byte of the instruction. It does not wrap, since the instruction lies within
`CAPACITY`. -/
theorem toNat_reg_pc_of_exec_afterOpcode {s u : State} {i : Instr} {c : Cursor}
    (hcap : s.params.capacity < 2 ^ 64) (hdecode : decode s.params s.fetchWindow = .ok (i, c))
    (hdest : i.dest ≠ some .pc) (hexec : exec i s.afterOpcode = .next u) :
    (u.reg .pc).toNat = (s.reg .pc).toNat + i.length := by
  have hwithin := State.pc_add_length_le_of_decode hdecode
  have hpos := i.length_pos
  have hone : s.reg .pc + 1 = s.reg .pc + BitVec.ofNat 64 1 := rfl
  have hnext : (s.reg .pc + 1).toNat = (s.reg .pc).toNat + 1 := by
    rw [hone, toNat_add_ofNat_of_lt (by omega)]
  rw [reg_pc_of_exec hdest hexec, State.reg_afterOpcode, if_pos rfl, toNat_add_ofNat_of_lt (by omega), hnext]
  omega

/-- Under the policy `fault` the Decoder delivers no instruction with PROGRAM_COUNTER as its destination (R83). -/
theorem dest_ne_pc_of_decode {p : Params} {bs : List Byte} {i : Instr} {c : Cursor}
    (hpolicy : p.pcWritePolicy = .fault) (h : decode p bs = .ok (i, c)) : i.dest ≠ some .pc :=
  fun hpc => ((Instr.wf_iff p i).1 (encode_decode h).1).2 ⟨hpc, hpolicy⟩

/-- Without jumps the step of an instruction that completes moves PROGRAM_COUNTER up, within `CAPACITY` (R95). -/
theorem reg_pc_endInstruction_of_exec {s u : State} {i : Instr} {c : Cursor} (hcap : s.params.capacity < 2 ^ 64)
    (hpolicy : s.params.pcWritePolicy = .fault) (hdecode : decode s.params s.fetchWindow = .ok (i, c))
    (hexec : exec i s.afterOpcode = .next u) :
    (s.reg .pc).toNat < (u.endInstruction.reg .pc).toNat ∧
      (u.endInstruction.reg .pc).toNat ≤ s.params.capacity := by
  have hwithin := State.pc_add_length_le_of_decode hdecode
  have hpos := i.length_pos
  rw [State.reg_endInstruction, if_neg (by decide),
    toNat_reg_pc_of_exec_afterOpcode hcap hdecode (dest_ne_pc_of_decode hpolicy hdecode) hexec]
  exact ⟨by omega, hwithin⟩

/-! ## How the step of a run ends -/

theorem State.Ready.paramsWf {s : State} (hs : s.Ready) : s.params.wf = true := hs.1

theorem State.Ready.running {s : State} (hs : s.Ready) : s.running = true := hs.2.2

/-- The three ends of a step: a decode that stops, a handler that raises, and a handler that returns, followed by the
halt check and the volatile reset (R87, R90). -/
inductive StepEnd (s t : State) : Prop where
  | rejected (r : Reject) (hdecode : decode s.params s.fetchWindow = .error r) (ht : t = s.raiseDecode r)
  | raised (i : Instr) (c : Cursor) (k : FaultKind) (hdecode : decode s.params s.fetchWindow = .ok (i, c))
      (hexec : exec i s.afterOpcode = .next t) (hraised : s.Raised t k (s.reg .pc) (t.reg .pc))
  | completed (i : Instr) (c : Cursor) (u : State) (hdecode : decode s.params s.fetchWindow = .ok (i, c))
      (hexec : exec i s.afterOpcode = .next u) (hrunning : u.running = true) (hfault : u.fault = s.fault)
      (ht : t = u.endInstruction)

theorem State.Raised.of_afterOpcode {s t : State} {k : FaultKind} {ipc pc : Word}
    (h : s.afterOpcode.Raised t k ipc pc) : s.Raised t k ipc pc := by
  obtain ⟨hrecord, hrunning, hpc, hregs, hbytes, hparams, hverbose, hipc, hrequest⟩ := h
  have hopcode : s.SameRegsExcept s.afterOpcode [.pc] := fun q hq => by
    rw [State.reg_afterOpcode, if_neg (by simpa using hq)]
  refine ⟨hrecord, hrunning, hpc, hopcode.trans hregs, fun x => ?_, hparams.trans s.afterOpcode_params,
    hverbose.trans s.afterOpcode_verbose, hipc, hrequest.trans s.afterOpcode_request⟩
  rw [hbytes x, State.afterOpcode_mem]

/-- A handler that raised has ended the run, and the step ends there (R87). -/
theorem State.finish_of_not_running {u : State} (h : u.running = false) : u.finish = u :=
  if_neg (by rw [h]; decide)

/-- Every step of a run ends in one of the three ways: what a handler leaves is `exec_result`. -/
theorem stepEnd_of_ready {s t : State} (hs : s.Ready) (h : step s = .next t) : StepEnd s t := by
  rw [step_of_ready hs] at h
  obtain ⟨r, hdecode, e⟩ | ⟨i, c, hdecode, e⟩ := s.stepInstruction_cases <;> rw [e] at h
  · cases h
    exact .rejected r hdecode rfl
  · cases hexec : exec i s.afterOpcode with
    | fault f => rw [hexec] at h; cases h
    | refused f => rw [hexec] at h; cases h
    | next u =>
      rw [hexec] at h
      cases h
      obtain ⟨hrunning, hfault⟩ | ⟨k, hraised⟩ := (exec_result i _ _ hexec).outcome
      · rw [State.afterOpcode_running, hs.running] at hrunning
        rw [State.afterOpcode_fault] at hfault
        exact .completed i c u hdecode hexec hrunning hfault (State.finish_of_running hrunning)
      · obtain ⟨-, hstopped, -⟩ := id hraised
        rw [State.afterOpcode_ipc] at hraised
        rw [State.finish_of_not_running hstopped]
        exact .raised i c k hdecode hexec hraised.of_afterOpcode

namespace StepEnd

variable {s t : State}

/-- Seen from the record, a step either took a fault or ended without one. -/
theorem raised_or_completed (h : StepEnd s t) :
    (∃ k, s.Raised t k (s.reg .pc) (t.reg .pc)) ∨
    ∃ i c u, decode s.params s.fetchWindow = .ok (i, c) ∧ exec i s.afterOpcode = .next u ∧ u.running = true ∧
      u.fault = s.fault ∧ t = u.endInstruction := by
  cases h with
  | rejected r hdecode ht =>
    have hraised := s.raised_raiseDecode r
    obtain ⟨-, -, hpc, -⟩ := id hraised
    exact .inl ⟨_, by rw [ht, hpc]; exact hraised⟩
  | raised i c k hdecode hexec hraised => exact .inl ⟨k, hraised⟩
  | completed i c u hdecode hexec hrunning hfault ht => exact .inr ⟨i, c, u, hdecode, hexec, hrunning, hfault, ht⟩

theorem completed_of_fault_eq_none (h : StepEnd s t) (ht : t.fault = none) :
    ∃ i c u, decode s.params s.fetchWindow = .ok (i, c) ∧ exec i s.afterOpcode = .next u ∧
      t = u.endInstruction := by
  obtain ⟨k, hrecord, -⟩ | ⟨i, c, u, hdecode, hexec, -, -, hend⟩ := h.raised_or_completed
  · rw [hrecord] at ht
    cases ht
  · exact ⟨i, c, u, hdecode, hexec, hend⟩

theorem params_and_request (h : StepEnd s t) : t.params = s.params ∧ t.request = s.request := by
  obtain ⟨k, -, -, -, -, -, hparams, -, -, hrequest⟩ | ⟨i, c, u, -, hexec, -, -, rfl⟩ := h.raised_or_completed
  · exact ⟨hparams, hrequest⟩
  · have hresult := exec_result i _ _ hexec
    exact ⟨hresult.params.trans s.afterOpcode_params, hresult.request.trans s.afterOpcode_request⟩

end StepEnd

/-! ## The trace (R89) -/

theorem State.fetchOpcode_of_inBounds {s : State} (h : s.inBounds (s.reg .pc) 1) : s.fetchOpcode = s.afterOpcode :=
  if_pos h

theorem State.fetchOpcode_of_outOfBounds {s : State} (h : ¬s.inBounds (s.reg .pc) 1) :
    s.fetchOpcode = s.recordIpc := if_neg h

theorem State.fetchOpcode_trace (s : State) :
    s.fetchOpcode.trace = s.trace ++
      (if s.verbose = true ∧ (s.reg .pc).toNat < s.params.capacity then
        [{ ipc := s.reg .pc, op := s.mem.readByte (s.reg .pc).toNat }] else []) := by
  by_cases hlt : (s.reg .pc).toNat < s.params.capacity
  · rw [State.fetchOpcode_of_inBounds hlt, State.afterOpcode_trace]
    simp [hlt]
  · rw [State.fetchOpcode_of_outOfBounds hlt, State.recordIpc_trace]
    simp [hlt]

/-- Where the Decoder delivers an instruction, its opcode byte lay in memory. -/
theorem State.fetchOpcode_eq_afterOpcode {s : State} {i : Instr} {c : Cursor}
    (h : decode s.params s.fetchWindow = .ok (i, c)) : s.fetchOpcode = s.afterOpcode :=
  State.fetchOpcode_of_inBounds (Nat.le_trans (Nat.add_le_add_left i.length_pos _) (State.pc_add_length_le_of_decode h))

theorem StepEnd.trace {s t : State} (h : StepEnd s t) : t.trace = s.fetchOpcode.trace := by
  cases h with
  | rejected r hdecode ht => rw [ht]; rfl
  | raised i c k hdecode hexec hraised =>
    rw [(exec_result i _ _ hexec).trace, State.fetchOpcode_eq_afterOpcode hdecode]
  | completed i c u hdecode hexec hrunning hfault ht =>
    rw [ht, State.endInstruction_trace, (exec_result i _ _ hexec).trace,
      State.fetchOpcode_eq_afterOpcode hdecode]

/-! ## The obligations -/

/-- Settles O32: the step by `step_of_decode`, the starting state by the field lemmas of `State.afterOpcode`. -/
theorem stepRunsDecodedInstruction : Obligations.StepRunsDecodedInstruction := by
  intro s i c hs hdecode
  have hregs : s.SameRegsExcept s.afterOpcode [.pc] := fun q hq => by
    rw [State.reg_afterOpcode, if_neg (by simpa using hq)]
  exact ⟨step_of_decode hs hdecode, s.afterOpcode_ipc, s.reg_afterOpcode .pc, hregs, s.afterOpcode_mem,
    s.afterOpcode_params, s.afterOpcode_running.trans hs.running, s.afterOpcode_fault, s.afterOpcode_verbose,
    s.afterOpcode_request, s.afterOpcode_trace⟩

/-- Settles O33: the window begins with the encoding, which the Decoder reads back (`State.decode_of_readBytes`). -/
theorem stepRunsEncodedInstruction : Obligations.StepRunsEncodedInstruction := by
  intro s i hs hi hcap hbytes
  obtain ⟨c, hdecode⟩ := State.decode_of_readBytes hs.paramsWf hi hcap hbytes
  exact step_of_decode hs hdecode

/-- Settles O35: the step raises `decodeFault` of the reason (`State.raised_raiseDecode`). -/
theorem rejectedDecodeRaises : Obligations.RejectedDecodeRaises := by
  rintro s r _ hs hdecode rfl
  refine ⟨_, _, step_of_decode_error hs hdecode, s.raised_raiseDecode r, ?_, ?_, ?_, ?_, ?_⟩
  all_goals
    intro x hx
    rw [hx]
    rfl

/-- Settles O37: the bytes before the operand are read back, and the window ends within the operand, whose fetch
therefore stops the Decoder where the operand begins (`decode_of_rejectsAt`). -/
theorem operandFetchPastEndRaises : Obligations.OperandFetchPastEndRaises := by
  intro s i k f hs hi hf hcap hend hbytes
  have hfits : k + f.bytes ≤ maxLength := Nat.le_trans (i.operandFields_end _ hf) i.length_le
  have hk : k ≤ s.fetchWindow.length := by
    rw [State.length_fetchWindow]
    omega
  have hshort : (s.mem.readBytes ((s.reg .pc).toNat + k) (s.fetchWindow.length - k)).length < f.bytes := by
    rw [Memory.length_readBytes, State.length_fetchWindow]
    omega
  have hdecode : decode s.params s.fetchWindow = .error { error := .endOfMemory f.bytes, consumed := k } := by
    rw [State.fetchWindow_eq_readBytes_append hk, hbytes]
    exact decode_of_rejectsAt hs.paramsWf hi hf (f.rejectsAt_of_length_lt s.params hshort)
  exact ⟨_, step_of_decode_error hs hdecode, s.raised_raiseDecode _⟩

/-- Settles O39: no byte is in the window, so the fetch of the opcode stops the Decoder with nothing consumed. -/
theorem opcodeFetchPastEndRaises : Obligations.OpcodeFetchPastEndRaises := by
  intro s hs hcap
  have hwindow : s.fetchWindow = [] := by
    rw [← List.length_eq_zero_iff, State.length_fetchWindow, Nat.sub_eq_zero_of_le hcap, Nat.min_zero]
  have hdecode : decode s.params s.fetchWindow = .error { error := .endOfMemory 1, consumed := 0 } := by
    rw [hwindow, decode_of_nil]
  have hraised := s.raised_raiseDecode { error := .endOfMemory 1, consumed := 0 }
  rw [show s.reg .pc + BitVec.ofNat 64 0 = s.reg .pc from BitVec.add_zero _] at hraised
  refine ⟨_, step_of_decode_error hs hdecode, hraised, ?_⟩
  have htrace : (s.raiseDecode { error := .endOfMemory 1, consumed := 0 }).trace = s.fetchOpcode.trace := rfl
  rw [htrace, State.fetchOpcode_trace, if_neg (fun h => absurd hcap (Nat.not_le.2 h.2)), List.append_nil]

/-- Settles O41: the handler leaves PROGRAM_COUNTER past the last byte, and the end of the step keeps it. -/
theorem completedInstructionAdvancesByLength : Obligations.CompletedInstructionAdvancesByLength := by
  intro s t i c hs _ hdecode hdest hstep ht
  obtain ⟨i', c', u, hdecode', hexec, rfl⟩ := (stepEnd_of_ready hs hstep).completed_of_fault_eq_none ht
  cases hdecode.symm.trans hdecode'
  rw [State.reg_endInstruction, if_neg (by decide)]
  exact toNat_reg_pc_of_exec_afterOpcode (s.params.capacity_lt_of_wf hs.paramsWf) hdecode hdest hexec

/-- Settles O42: no delivered instruction has PROGRAM_COUNTER as its destination, so PROGRAM_COUNTER advances by a
length of at least 1 and stays within the capacity. -/
theorem programCounterOnlyMovesForward : Obligations.ProgramCounterOnlyMovesForward := by
  intro s t hs _ hpolicy hstep ht
  obtain ⟨i, c, u, hdecode, hexec, rfl⟩ := (stepEnd_of_ready hs hstep).completed_of_fault_eq_none ht
  exact reg_pc_endInstruction_of_exec (s.params.capacity_lt_of_wf hs.paramsWf) hpolicy hdecode hexec

/-- Settles O43: a step that ends without a raise keeps the record, which was empty. -/
theorem faultingStepChangesOnlyPc : Obligations.FaultingStepChangesOnlyPc := by
  intro s t hs hfault hstep ht
  obtain hraised | ⟨i, c, u, -, -, -, hkeeps, rfl⟩ := (stepEnd_of_ready hs hstep).raised_or_completed
  · exact hraised
  · exact absurd (hkeeps.trans hfault) ht

/-- Settles O44: after a handler that returns, the halt check stops the run only on a nonzero EXIT. -/
theorem runStopsOnlyByHaltOrFault : Obligations.RunStopsOnlyByHaltOrFault := by
  intro s t hs _ hstep ht
  obtain ⟨k, hrecord, -⟩ | ⟨i, c, u, hdecode, hexec, hrunning, -, rfl⟩ :=
    (stepEnd_of_ready hs hstep).raised_or_completed
  · exact .inl (by rw [hrecord]; exact Option.some_ne_none _)
  · refine .inr ⟨i, c, u, hdecode, hexec, fun hexit => ?_⟩
    rw [(State.running_endInstruction_iff hrunning).2 hexit] at ht
    cases ht

end Sys2Proof.Machine
end

section
/-! PROOFS. Every step of the block (spec/70_reset_and_hazards.md section 2, spec/60_exceptions.md R185): requests, the
idle block, what no step changes, and what the verbosity flag decides. -/

namespace Sys2Proof.Machine

/-! ## What a step can be -/

theorem step_of_idle {s : State} (hp : s.params.wf = true) (hrunning : s.running = false)
    (hrequest : s.request = none) : step s = .next s := by
  simp [step, State.cycle, hp, hrunning, hrequest]

theorem step_of_request {s : State} {r : Request} (hp : s.params.wf = true) (hrunning : s.running = false)
    (hrequest : s.request = some r) : step s = .next (s.load r) := by
  simp [step, State.cycle, hp, hrunning, hrequest]

theorem step_of_request_during_run {s : State} {r : Request} (hp : s.params.wf = true) (hrunning : s.running = true)
    (hrequest : s.request = some r) : step s = .refused .requestWhileRunning := by
  simp [step, State.cycle, hp, hrunning, hrequest]

/-- A step that answers a next state takes a request, runs an instruction or idles. -/
inductive StepKind (s t : State) : Prop where
  | load (r : Request) (hrunning : s.running = false) (hrequest : s.request = some r) (ht : t = s.load r)
  | instruction (hs : s.Ready) (hend : StepEnd s t)
  | idle (hp : s.params.wf = true) (hrunning : s.running = false) (hrequest : s.request = none) (ht : t = s)

theorem stepKind_of_step {s t : State} (h : step s = .next t) : StepKind s t := by
  have hcycle : s.cycle = .next t := h
  obtain ⟨-, e⟩ | ⟨-, -, -, e⟩ | ⟨-, hrunning, r, hrequest, e⟩ | ⟨hp, hrequest, hrunning, -⟩ |
    ⟨hp, hrequest, hrunning, e⟩ := s.cycle_cases
  · rw [e] at hcycle
    cases hcycle
  · rw [e] at hcycle
    cases hcycle
  · rw [e] at hcycle
    cases hcycle
    exact .load r hrunning hrequest rfl
  · exact .instruction ⟨hp, hrequest, hrunning⟩ (stepEnd_of_ready ⟨hp, hrequest, hrunning⟩ h)
  · rw [e] at hcycle
    cases hcycle
    exact .idle hp hrunning hrequest rfl

/-! ## Taking a request (R191, R192) -/

/-- The state in which the code of a request that fits starts to run. -/
def State.started (s : State) (r : Request) : State :=
  { (s.pushed r.code).setReg .pc (s.reg .sp) with
    fault := none, verbose := r.verbose, request := none, running := true }

theorem State.load_of_inBounds {s : State} {r : Request} (h : s.inBounds (s.reg .sp) r.code.length) :
    s.load r = s.started r := by
  obtain ⟨-, e⟩ | ⟨hout, -⟩ := s.load_cases r
  · exact e
  · exact absurd h hout

theorem State.load_of_outOfBounds {s : State} {r : Request} (h : ¬s.inBounds (s.reg .sp) r.code.length) :
    s.load r = State.recordFault { s with fault := none, verbose := r.verbose, request := none }
      (.memoryFault (s.reg .sp) r.code.length) (s.reg .pc) := by
  obtain ⟨hin, -⟩ | ⟨-, e⟩ := s.load_cases r
  · exact absurd hin h
  · exact e

theorem State.reg_started (s : State) (r : Request) (q : Reg) :
    (s.started r).reg q =
      if q = .pc then s.reg .sp else if q = .sp then s.reg .sp + BitVec.ofNat 64 r.code.length else s.reg q :=
  (State.reg_setReg _ _ _ _).trans (by rw [State.reg_pushed])

theorem State.load_params (s : State) (r : Request) : (s.load r).params = s.params := by
  obtain ⟨-, e⟩ | ⟨-, e⟩ := s.load_cases r <;> rw [e]

theorem State.load_request (s : State) (r : Request) : (s.load r).request = none := by
  obtain ⟨-, e⟩ | ⟨-, e⟩ := s.load_cases r <;> rw [e]

/-! ## Every handler answers a next state -/

theorem withDest_next (rd : Reg) (s : State) {k : Result} (hk : ∃ t, k = .next t) :
    ∃ t, withDest rd s k = .next t := by
  obtain ⟨-, -, e⟩ | ⟨-, e⟩ := withDest_cases rd s k
  · exact ⟨_, e⟩
  · rw [e]
    exact hk

theorem orRaise_next {α : Type} (s : State) (r : Except FaultKind α) (k : α → State) :
    ∃ t, orRaise s r k = .next t := by
  cases r <;> exact ⟨_, rfl⟩

theorem exec_next (i : Instr) (s : State) : ∃ t, exec i s = .next t := by
  cases i with
  | add | sub | mul | nop | exit => exact ⟨_, rfl⟩
  | div | mod =>
    by_cases hb : s.reg .b = 0
    · exact ⟨_, if_pos hb⟩
    · exact ⟨_, if_neg hb⟩
  | incReg | decReg | moveRegReg | moveRegConst => exact withDest_next _ s ⟨_, rfl⟩
  | moveRegAddrInReg | moveRegAddrLiteral => exact withDest_next _ s (orRaise_next _ _ _)
  | incAddrInReg | incAddrLiteral | decAddrInReg | decAddrLiteral | moveAddrInRegReg => exact orRaise_next _ _ _

theorem step_next_of_ready {s : State} (hs : s.Ready) : ∃ t, step s = .next t := by
  cases hdecode : decode s.params s.fetchWindow with
  | error r => exact ⟨_, step_of_decode_error hs hdecode⟩
  | ok x =>
    obtain ⟨u, hexec⟩ := exec_next x.1 s.afterOpcode
    exact ⟨_, (step_of_decode hs hdecode).trans (congrArg finishResult hexec)⟩

/-! ## The verbosity flag and the trace decide nothing else -/

/-- The state with another verbosity flag and another trace. -/
def State.withTrace (s : State) (v : Bool) (tr : List TraceEvent) : State := { s with verbose := v, trace := tr }

/-- An answer with its next state changed by `f`. -/
def mapNext (f : State → State) : Result → Result
  | .next t => .next (f t)
  | .fault e => .fault e
  | .refused e => .refused e

theorem withDest_withTrace (rd : Reg) (s : State) (v : Bool) (tr : List TraceEvent) {k k' : Result}
    (hk : k' = mapNext (·.withTrace v tr) k) :
    withDest rd (s.withTrace v tr) k' = mapNext (·.withTrace v tr) (withDest rd s k) := by
  by_cases h : rd = .pc ∧ s.params.pcWritePolicy = .fault
  · obtain ⟨rfl, hpolicy⟩ := h
    rw [withDest_pc hpolicy, withDest_pc (s := s.withTrace v tr) hpolicy]
    rfl
  · rw [withDest_of_admitsDest ((s.admitsDest_iff rd).2 h),
      withDest_of_admitsDest (((s.withTrace v tr).admitsDest_iff rd).2 h), hk]

theorem modifyMemory_withTrace (s : State) (v : Bool) (tr : List TraceEvent) (w : Width) (addr : Word)
    (f : Word → Word) :
    (s.withTrace v tr).modifyMemory w addr f = mapNext (·.withTrace v tr) (s.modifyMemory w addr f) := by
  by_cases h : s.inBounds addr w.bytes
  · rw [State.modifyMemory_of_inBounds f h, State.modifyMemory_of_inBounds (s := s.withTrace v tr) f h]
    rfl
  · rw [State.modifyMemory_of_outOfBounds f h, State.modifyMemory_of_outOfBounds (s := s.withTrace v tr) f h]
    rfl

theorem loadReg_withTrace (s : State) (v : Bool) (tr : List TraceEvent) (rd : Reg) (w : Width) (addr : Word) :
    (s.withTrace v tr).loadReg rd w addr = mapNext (·.withTrace v tr) (s.loadReg rd w addr) := by
  by_cases h : s.inBounds addr w.bytes
  · rw [State.loadReg_of_inBounds rd h, State.loadReg_of_inBounds (s := s.withTrace v tr) rd h]
    rfl
  · rw [State.loadReg_of_outOfBounds rd h, State.loadReg_of_outOfBounds (s := s.withTrace v tr) rd h]
    rfl

theorem storeReg_withTrace (s : State) (v : Bool) (tr : List TraceEvent) (w : Width) (addr : Word) (rs : Reg) :
    (s.withTrace v tr).storeReg w addr rs = mapNext (·.withTrace v tr) (s.storeReg w addr rs) := by
  by_cases h : s.inBounds addr w.bytes
  · rw [State.storeReg_of_inBounds rs h, State.storeReg_of_inBounds (s := s.withTrace v tr) rs h]
    rfl
  · rw [State.storeReg_of_outOfBounds rs h, State.storeReg_of_outOfBounds (s := s.withTrace v tr) rs h]
    rfl

/-- No handler reads the verbosity flag or the trace, and none writes them. -/
theorem exec_withTrace (i : Instr) (s : State) (v : Bool) (tr : List TraceEvent) :
    exec i (s.withTrace v tr) = mapNext (·.withTrace v tr) (exec i s) := by
  cases i with
  | add | sub | mul | nop | exit => rfl
  | div =>
    by_cases hb : s.reg .b = 0
    · rw [exec_div_of_zero hb, exec_div_of_zero (s := s.withTrace v tr) hb]
      rfl
    · rw [exec_div_of_ne_zero hb, exec_div_of_ne_zero (s := s.withTrace v tr) hb]
      rfl
  | mod =>
    by_cases hb : s.reg .b = 0
    · rw [exec_mod_of_zero hb, exec_mod_of_zero (s := s.withTrace v tr) hb]
      rfl
    · rw [exec_mod_of_ne_zero hb, exec_mod_of_ne_zero (s := s.withTrace v tr) hb]
      rfl
  | incReg r | decReg r => exact withDest_withTrace r s v tr rfl
  | incAddrInReg w ra | decAddrInReg w ra => exact modifyMemory_withTrace (s.consume 2) v tr w _ _
  | incAddrLiteral w addr | decAddrLiteral w addr => exact modifyMemory_withTrace (s.consume 9) v tr w addr _
  | moveRegReg rd rs => exact withDest_withTrace rd s v tr rfl
  | moveRegConst rd w imm => exact withDest_withTrace rd s v tr rfl
  | moveRegAddrInReg rd w ra =>
    exact withDest_withTrace rd s v tr (loadReg_withTrace (s.consume 3) v tr rd w _)
  | moveRegAddrLiteral rd w addr =>
    exact withDest_withTrace rd s v tr (loadReg_withTrace (s.consume 10) v tr rd w addr)
  | moveAddrInRegReg ra w rs => exact storeReg_withTrace (s.consume 3) v tr w _ rs

theorem afterOpcode_withTrace (s : State) (v : Bool) (tr : List TraceEvent) :
    ∃ tr', (s.withTrace v tr).afterOpcode = s.afterOpcode.withTrace v tr' := by
  unfold State.afterOpcode State.emitTrace
  split <;> split <;> exact ⟨_, rfl⟩

theorem fetchOpcode_withTrace (s : State) (v : Bool) (tr : List TraceEvent) :
    ∃ tr', (s.withTrace v tr).fetchOpcode = s.fetchOpcode.withTrace v tr' := by
  obtain ⟨tr', hafter⟩ := afterOpcode_withTrace s v tr
  by_cases h : s.inBounds (s.reg .pc) 1
  · refine ⟨tr', ?_⟩
    rw [State.fetchOpcode_of_inBounds h, State.fetchOpcode_of_inBounds (s := s.withTrace v tr) h, hafter]
  · refine ⟨tr, ?_⟩
    rw [State.fetchOpcode_of_outOfBounds h, State.fetchOpcode_of_outOfBounds (s := s.withTrace v tr) h]
    rfl

theorem raiseDecode_withTrace (s : State) (r : Reject) (v : Bool) (tr : List TraceEvent) :
    ∃ tr', (s.withTrace v tr).raiseDecode r = (s.raiseDecode r).withTrace v tr' := by
  obtain ⟨tr', hfetch⟩ := fetchOpcode_withTrace s v tr
  refine ⟨tr', ?_⟩
  rw [State.raiseDecode, hfetch]
  rfl

theorem finishResult_mapNext (v : Bool) (tr : List TraceEvent) (answer : Result) :
    finishResult (mapNext (·.withTrace v tr) answer) = mapNext (·.withTrace v tr) (finishResult answer) := by
  cases answer with
  | next u =>
    refine congrArg Host.Outcome.next ?_
    show (u.withTrace v tr).finish = u.finish.withTrace v tr
    cases h : u.running with
    | true =>
      rw [State.finish_of_running h, State.finish_of_running (u := u.withTrace v tr) h]
      rfl
    | false => rw [State.finish_of_not_running h, State.finish_of_not_running (u := u.withTrace v tr) h]
  | fault e => rfl
  | refused e => rfl

theorem stepInstruction_withTrace (s : State) (v : Bool) (tr : List TraceEvent) :
    ∃ tr', (s.withTrace v tr).stepInstruction = mapNext (·.withTrace v tr') s.stepInstruction := by
  cases hdecode : decode s.params s.fetchWindow with
  | error r =>
    obtain ⟨tr', hraise⟩ := raiseDecode_withTrace s r v tr
    have hdecode' : decode (s.withTrace v tr).params (s.withTrace v tr).fetchWindow = .error r := hdecode
    refine ⟨tr', ?_⟩
    rw [State.stepInstruction, State.stepInstruction, hdecode, hdecode']
    exact congrArg Host.Outcome.next hraise
  | ok x =>
    obtain ⟨tr', hafter⟩ := afterOpcode_withTrace s v tr
    have hdecode' : decode (s.withTrace v tr).params (s.withTrace v tr).fetchWindow = .ok x := hdecode
    refine ⟨tr', ?_⟩
    rw [State.stepInstruction_of_decode hdecode, State.stepInstruction_of_decode hdecode', hafter, exec_withTrace,
      finishResult_mapNext]

/-! ## The obligations -/

/-- Settles O52: the one branch of the cycle that is left. -/
theorem idleBlockKeepsState : Obligations.IdleBlockKeepsState :=
  fun _ hp hrunning hrequest => step_of_idle hp hrunning hrequest

/-- Settles O51: the two branches of the cycle with a request at the port. -/
theorem requestDuringRunIsRefused : Obligations.RequestDuringRunIsRefused :=
  fun s r hp hrequest => ⟨fun hrunning => step_of_request_during_run hp hrunning hrequest,
    fun hrunning => ⟨_, step_of_request hp hrunning hrequest, s.load_request r⟩⟩

/-- Settles O49: the code is pushed (`State.pushed`), so it lies at the old stack pointer, where PROGRAM_COUNTER is
set; the new stack pointer is within `CAPACITY` and does not wrap. -/
theorem loadPlacesCodeAndStarts : Obligations.LoadPlacesCodeAndStarts := by
  intro s r hp hrunning hrequest hin
  have hstep := step_of_request hp hrunning hrequest
  rw [State.load_of_inBounds hin] at hstep
  have hsp : ((s.started r).reg .sp).toNat = (s.reg .sp).toNat + r.code.length := by
    rw [State.reg_started, if_neg (by decide), if_pos rfl,
      toNat_add_ofNat_of_lt (Nat.lt_of_le_of_lt hin (s.params.capacity_lt_of_wf hp))]
  have hregs : s.SameRegsExcept (s.started r) [.pc, .sp] := fun q hq => by
    simp only [List.mem_cons, List.not_mem_nil, or_false, not_or] at hq
    rw [State.reg_started, if_neg hq.1, if_neg hq.2]
  exact ⟨_, hstep, rfl, rfl, rfl, rfl, by rw [State.reg_started, if_pos rfl], hsp,
    Memory.readBytes_writeBytes _ _ _, hregs, s.sameBytesOutside_pushed r.code, rfl, rfl⟩

/-- Settles O50: a load that does not fit only records the fault (`State.load_of_outOfBounds`). -/
theorem loadThatDoesNotFitFaults : Obligations.LoadThatDoesNotFitFaults := by
  intro s r hp hrunning hrequest hout
  have hstep := step_of_request hp hrunning hrequest
  rw [State.load_of_outOfBounds (Nat.not_le.2 hout)] at hstep
  exact ⟨_, hstep, rfl, rfl, fun _ => rfl, rfl⟩

/-- Settles O45: in each of the three kinds of step. -/
theorem stepKeepsParameters : Obligations.StepKeepsParameters := by
  intro s t h
  cases stepKind_of_step h with
  | load r hrunning hrequest ht => rw [ht, State.load_params]
  | instruction hs hend => exact hend.params_and_request.1
  | idle hp hrunning hrequest ht => rw [ht]

/-- Settles O40: a step of a run leaves the trace of its opcode fetch (`StepEnd.trace`), and an idle block's step
leaves the trace alone. -/
theorem stepEmitsOneTraceEvent : Obligations.StepEmitsOneTraceEvent := by
  intro s t hnone h
  cases stepKind_of_step h with
  | load r hrunning hrequest ht =>
    rw [hnone] at hrequest
    cases hrequest
  | instruction hs hend =>
    rw [hend.trace, State.fetchOpcode_trace]
    simp only [hs.running, true_and]
  | idle hp hrunning hrequest ht => simp [ht, hrunning]

/-- Settles O47: a step that is neither of the two stops is one of the three kinds, and every handler answers a next
state (`exec_next`). -/
theorem stepAnswersNextState : Obligations.StepAnswersNextState := by
  refine ⟨fun s hp hport => ?_, exec_next⟩
  cases hrunning : s.running with
  | true =>
    have hrequest : s.request = none := by_contra fun h => hport ⟨hrunning, h⟩
    exact step_next_of_ready ⟨hp, hrequest, hrunning⟩
  | false =>
    cases hrequest : s.request with
    | none => exact ⟨_, step_of_idle hp hrunning hrequest⟩
    | some r => exact ⟨_, step_of_request hp hrunning hrequest⟩

/-- Settles O46: an idle block keeps its state, and the step of a run maps the change of the two fields through
(`stepInstruction_withTrace`). -/
theorem verbosityChangesOnlyTrace : Obligations.VerbosityChangesOnlyTrace := by
  intro s t v tr hnone h
  cases stepKind_of_step h with
  | load r hrunning hrequest ht =>
    rw [hnone] at hrequest
    cases hrequest
  | instruction hs hend =>
    obtain ⟨tr', hinstruction⟩ := stepInstruction_withTrace s v tr
    have hs' : (s.withTrace v tr).Ready := hs
    refine ⟨tr', (step_of_ready hs').trans ?_⟩
    rw [hinstruction, ← step_of_ready hs, h]
    rfl
  | idle hp hrunning hrequest ht =>
    rw [ht]
    exact ⟨tr, step_of_idle hp hrunning hrequest⟩

end Sys2Proof.Machine
end

section
/-! PROOFS. Over every step and every run (spec/10_state.md sections 4 and 5, spec/40_execution_loop.md section 5): the
invariant of the machine, and that a run without jumps ends. -/

namespace Sys2Proof.Machine

/-! ## The step of a run keeps the invariant -/

/-- A rejected decode leaves PROGRAM_COUNTER past bytes that the window held, so within `CAPACITY`. -/
theorem toNat_reg_pc_raiseDecode_le {s : State} {r : Reject} (hcap : s.params.capacity < 2 ^ 64)
    (hpc : (s.reg .pc).toNat ≤ s.params.capacity) (hdecode : decode s.params s.fetchWindow = .error r) :
    ((s.raiseDecode r).reg .pc).toNat ≤ s.params.capacity := by
  have hconsumed := consumed_le_of_decode_error hdecode
  rw [State.length_fetchWindow] at hconsumed
  obtain ⟨-, -, hreg, -⟩ := s.raised_raiseDecode r
  rw [hreg, toNat_add_ofNat_of_lt (by omega)]
  omega

/-- Without jumps PROGRAM_COUNTER never passes the end of memory (40_execution_loop.md R95). -/
theorem StepEnd.toNat_reg_pc_le {s t : State} (h : StepEnd s t) (hcap : s.params.capacity < 2 ^ 64)
    (hpolicy : s.params.pcWritePolicy = .fault) (hpc : (s.reg .pc).toNat ≤ s.params.capacity) :
    (t.reg .pc).toNat ≤ s.params.capacity := by
  cases h with
  | rejected r hdecode ht =>
    rw [ht]
    exact toNat_reg_pc_raiseDecode_le hcap hpc hdecode
  | raised i c k hdecode hexec hraised =>
    rw [toNat_reg_pc_of_exec_afterOpcode hcap hdecode (dest_ne_pc_of_decode hpolicy hdecode) hexec]
    exact State.pc_add_length_le_of_decode hdecode
  | completed i c u hdecode hexec hrunning hfault ht =>
    exact ht ▸ (reg_pc_endInstruction_of_exec hcap hpolicy hdecode hexec).2

/-- The memory a handler leaves is canonical and below `CAPACITY` if the memory before the step was. -/
theorem memory_of_exec_afterOpcode {s u : State} {i : Instr} (hs : s.Inv) (hexec : exec i s.afterOpcode = .next u) :
    u.mem.wf ∧ ∀ c ∈ u.mem, c.1 < s.params.capacity := by
  have hresult := exec_result i _ _ hexec
  have hmemory := hresult.memory
  have hbelow := hresult.inMemory
  rw [State.afterOpcode_mem] at hmemory hbelow
  rw [State.afterOpcode_params] at hbelow
  exact ⟨hmemory hs.memory, hbelow hs.inMemory⟩

theorem StepEnd.memory {s t : State} (h : StepEnd s t) (hs : s.Inv) :
    t.mem.wf ∧ ∀ c ∈ t.mem, c.1 < s.params.capacity := by
  cases h with
  | rejected r hdecode ht =>
    rw [ht, State.raiseDecode_mem]
    exact ⟨hs.memory, hs.inMemory⟩
  | raised i c k hdecode hexec hraised => exact memory_of_exec_afterOpcode hs hexec
  | completed i c u hdecode hexec hrunning hfault ht =>
    rw [ht, State.endInstruction_mem]
    exact memory_of_exec_afterOpcode hs hexec

/-- EXIT is 0 after a raise, which writes no register but PROGRAM_COUNTER, and after the volatile reset (R90). -/
theorem StepEnd.exitClear {s t : State} (h : StepEnd s t) (hs : s.reg .exit = 0) : t.reg .exit = 0 := by
  obtain ⟨k, -, -, -, hregs, -⟩ | ⟨i, c, u, -, -, -, -, rfl⟩ := h.raised_or_completed
  · rw [hregs .exit (by decide), hs]
  · rw [State.reg_endInstruction, if_pos rfl]

/-- A raise ends the run, and a step without one keeps the record. -/
theorem StepEnd.faultEndsRun {s t : State} (h : StepEnd s t) (hs : s.fault = none) :
    t.running = true → t.fault = none := by
  obtain ⟨k, -, hstopped, -⟩ | ⟨i, c, u, -, -, -, hfault, rfl⟩ := h.raised_or_completed
  · intro hrunning
    rw [hstopped] at hrunning
    cases hrunning
  · exact fun _ => hfault.trans hs

theorem State.Inv.of_stepEnd {s t : State} (hs : s.Inv) (hrunning : s.running = true) (h : StepEnd s t) : t.Inv := by
  obtain ⟨hparams, -⟩ := h.params_and_request
  obtain ⟨hmemory, hbelow⟩ := h.memory hs
  have hcap := s.params.capacity_lt_of_wf hs.params
  refine ⟨hparams ▸ hs.params, hmemory, hparams ▸ hbelow, h.exitClear hs.exitClear,
    h.faultEndsRun (hs.faultEndsRun hrunning), ?_⟩
  rw [hparams]
  exact fun hpolicy => h.toNat_reg_pc_le hcap hpolicy (hs.pcInMemory hpolicy)

/-! ## Taking a request keeps the invariant -/

theorem State.Inv.of_load {s : State} (hs : s.Inv) (r : Request) : (s.load r).Inv := by
  by_cases hin : s.inBounds (s.reg .sp) r.code.length
  · rw [State.load_of_inBounds hin]
    exact {
      params := hs.params
      memory := Memory.wf_writeBytes _ _ _ hs.memory
      inMemory := Memory.lt_of_mem_writeBytes _ _ _ _ hin hs.inMemory
      exitClear := by rw [State.reg_started, if_neg (by decide), if_neg (by decide), hs.exitClear]
      faultEndsRun := fun _ => rfl
      pcInMemory := fun _ => by
        rw [State.reg_started, if_pos rfl]
        exact Nat.le_trans (Nat.le_add_right _ _) hin }
  · rw [State.load_of_outOfBounds hin]
    exact {
      params := hs.params
      memory := hs.memory
      inMemory := hs.inMemory
      exitClear := hs.exitClear
      faultEndsRun := fun hrunning => by cases hrunning
      pcInMemory := hs.pcInMemory }

/-! ## A run without jumps ends (R95) -/

/-- A step after which the run goes on has moved PROGRAM_COUNTER up, within `CAPACITY`. -/
theorem StepEnd.reg_pc_of_running {s t : State} (h : StepEnd s t) (hcap : s.params.capacity < 2 ^ 64)
    (hpolicy : s.params.pcWritePolicy = .fault) (hrunning : t.running = true) :
    (s.reg .pc).toNat < (t.reg .pc).toNat ∧ (t.reg .pc).toNat ≤ s.params.capacity := by
  obtain ⟨k, -, hstopped, -⟩ | ⟨i, c, u, hdecode, hexec, -, -, rfl⟩ := h.raised_or_completed
  · rw [hstopped] at hrunning
    cases hrunning
  · exact reg_pc_endInstruction_of_exec hcap hpolicy hdecode hexec

theorem endsWithin_succ {s t : State} {k : Nat} (hstep : step s = .next t) (h : t.EndsWithin k) :
    s.EndsWithin (k + 1) := by
  obtain ⟨u, hrun, hstopped⟩ := h
  exact ⟨u, (core_run_succ k s t hstep).trans hrun, hstopped⟩

/-- An idle block is at its end after any number of steps. -/
theorem endsWithin_of_idle {s : State} (hp : s.params.wf = true) (hrequest : s.request = none)
    (hrunning : s.running = false) (k : Nat) : s.EndsWithin k := by
  induction k with
  | zero => exact ⟨s, rfl, hrunning⟩
  | succ k ih => exact endsWithin_succ (step_of_idle hp hrunning hrequest) ih

/-- A run goes on only by a step that uses up at least one of the bytes from PROGRAM_COUNTER to the end of memory, so
`k` steps end it where fewer than `k` bytes are left of them. -/
theorem endsWithin_of_capacity_lt {k : Nat} {s : State} (hp : s.params.wf = true)
    (hpolicy : s.params.pcWritePolicy = .fault) (hrequest : s.request = none)
    (hleft : s.running = true → s.params.capacity < (s.reg .pc).toNat + k ∧ 0 < k) : s.EndsWithin k := by
  induction k generalizing s with
  | zero =>
    refine endsWithin_of_idle hp hrequest (Bool.eq_false_iff.2 fun hrunning => ?_) 0
    exact absurd (hleft hrunning).2 (Nat.lt_irrefl 0)
  | succ k ih =>
    cases hrunning : s.running with
    | false => exact endsWithin_of_idle hp hrequest hrunning _
    | true =>
      obtain ⟨t, hstep⟩ := step_next_of_ready ⟨hp, hrequest, hrunning⟩
      have hend := stepEnd_of_ready ⟨hp, hrequest, hrunning⟩ hstep
      obtain ⟨hparams, hport⟩ := hend.params_and_request
      refine endsWithin_succ hstep (ih (hparams ▸ hp) (hparams ▸ hpolicy) (hport.trans hrequest) fun hgoes => ?_)
      have hmoves := hend.reg_pc_of_running (s.params.capacity_lt_of_wf hp) hpolicy hgoes
      have hbytes := (hleft hrunning).1
      rw [hparams]
      omega

/-! ## The obligations -/

/-- Settles O59: in each of the three kinds of step. -/
theorem stepKeepsMachineInvariant : Obligations.StepKeepsMachineInvariant := by
  intro s t hs h
  cases stepKind_of_step h with
  | load r hrunning hrequest ht => exact ht ▸ hs.of_load r
  | instruction hready hend => exact hs.of_stepEnd hready.running hend
  | idle hp hrunning hrequest ht => exact ht ▸ hs

/-- Settles O60: fewer than `CAPACITY + 1` bytes are left from wherever PROGRAM_COUNTER stands. -/
theorem everyRunEndsWithoutJumps : Obligations.EveryRunEndsWithoutJumps := by
  intro s hp hpolicy hrequest
  exact endsWithin_of_capacity_lt hp hpolicy hrequest fun _ => ⟨by omega, Nat.succ_pos _⟩

end Sys2Proof.Machine
end
